-- ==== Sys2Proof/Word.lean ====
section
/-! DEFINITION. The byte, the register index and the two ways a whole number becomes a byte (00_scope.md R4, R7). -/

namespace Sys2Proof

/-- A byte: "an unsigned integer in 0..255, 8 bits" (00_scope.md R7). Registers, `pc`, memory cells and addresses are bytes. -/
abbrev Byte := BitVec 8

/-- A register index, `0 <= i <= 7` (00_scope.md R4 `NREG`, R7). -/
abbrev RegIdx := Fin 8

end Sys2Proof
end

