-- ==== Sys2Proof/Config.lean ====
section
/-! DEFINITION. The fixed parameters (00_scope.md R4) and the implementation parameters a step can see (R5, R6). -/

namespace Sys2Proof

/-- `MEM_SIZE`: 256 memory cells, addresses 0 to 255 (00_scope.md R4). -/
abbrev memSize : Nat := 256

/-- `SP_INDEX`: the stack pointer is register 7 (00_scope.md R4, 10_state.md R12). -/
abbrev spIndex : RegIdx := 7

/-- The parameter `OPC`: the opcode byte of each mnemonic (00_scope.md R5, 30_encoding.md R43).
Plain data, so that a state that carries it can be compared and written out. -/
structure OpcodeMap where
  halt : Byte
  ldi  : Byte
  prn  : Byte
  mul  : Byte
  cmp  : Byte
  push : Byte
  pop  : Byte
  jmp  : Byte
  jeq  : Byte
  jne  : Byte
  call : Byte
  ret  : Byte
  add  : Byte
  deriving DecidableEq, Repr

/-- The implementation parameters a step can see. `FLAGS_RESET`, `REG_RESET` and `MEM_FILL` of 00_scope.md R5
act on the reset state alone and stand in Machine/Params.lean.
DESIGN CHOICE (log entry 2, safe): they are carried in the state, so that a statement over every state covers every
configuration; no step writes them. -/
structure Config where
  /-- `OPC` (R5, 30_encoding.md R43, R45). -/
  opc : OpcodeMap
  /-- `ADD_ENABLE` (R6): whether the opcode of ADD is recognised. -/
  addEnable : Bool
  /-- `PREFETCH_FALLBACK` (R5): the value of a prefetched byte beyond address 255. -/
  prefetchFallback : Byte
  deriving DecidableEq, Repr

end Sys2Proof
end

