-- ==== Sys2Proof/Syntax.lean ====
section
/-! DEFINITION. The instructions: one constructor per row of spec/opcode_table.json (30_encoding.md R40, R43). -/

namespace Sys2Proof

/-- The names of the closed instruction table, in its order (30_encoding.md R43, R44: "a closed enumeration of opcode
variants"). -/
inductive Opcode where
  | halt | ldi | prn | mul | cmp | push | pop | jmp | jeq | jne | call | ret | add
  deriving DecidableEq, Repr

/-- The four instruction formats (30_encoding.md R40). -/
inductive Format where
  | z    -- opcode alone
  | r    -- one register operand
  | rr   -- two register operands
  | ri   -- a register operand and an immediate
  deriving DecidableEq, Repr

/-- An instruction with its operand bytes as they stand in memory. A register operand is a whole byte, not masked
(30_encoding.md R41): a byte above 7 is a term of this type, ill-formed, and faults when it is executed. -/
inductive Instr where
  /-- HALT (40_step_loop.md R57). -/
  | halt
  /-- LDI r, imm (41_load_output.md R60). -/
  | ldi (r imm : Byte)
  /-- PRN r (41_load_output.md R61). -/
  | prn (r : Byte)
  /-- MUL a, b (42_alu.md R68). -/
  | mul (a b : Byte)
  /-- CMP a, b (42_alu.md R69). -/
  | cmp (a b : Byte)
  /-- PUSH r (43_stack.md R76). -/
  | push (r : Byte)
  /-- POP r (43_stack.md R77). -/
  | pop (r : Byte)
  /-- JMP r (44_control.md R81). -/
  | jmp (r : Byte)
  /-- JEQ r (44_control.md R82). -/
  | jeq (r : Byte)
  /-- JNE r (44_control.md R83). -/
  | jne (r : Byte)
  /-- CALL r (44_control.md R84). -/
  | call (r : Byte)
  /-- RET (44_control.md R85). -/
  | ret
  /-- ADD a, b, decodable only when `ADD_ENABLE` (42_alu.md R71). -/
  | add (a b : Byte)
  deriving DecidableEq, Repr

/-- The table row an instruction belongs to. -/
def Instr.opcode : Instr → Opcode
  | .halt    => .halt
  | .ldi _ _ => .ldi
  | .prn _   => .prn
  | .mul _ _ => .mul
  | .cmp _ _ => .cmp
  | .push _  => .push
  | .pop _   => .pop
  | .jmp _   => .jmp
  | .jeq _   => .jeq
  | .jne _   => .jne
  | .call _  => .call
  | .ret     => .ret
  | .add _ _ => .add

/-- The register operand bytes of an instruction, `b1` before `b2` (30_encoding.md R41). LDI's immediate is none of them. -/
def Instr.regOperands : Instr → List Byte
  | .halt    => []
  | .ldi r _ => [r]
  | .prn r   => [r]
  | .mul a b => [a, b]
  | .cmp a b => [a, b]
  | .push r  => [r]
  | .pop r   => [r]
  | .jmp r   => [r]
  | .jeq r   => [r]
  | .jne r   => [r]
  | .call r  => [r]
  | .ret     => []
  | .add a b => [a, b]

end Sys2Proof
end

