-- ==== Sys2Proof/WellFormed.lean ====
section
/-! DEFINITION. Which instructions are well formed: every register operand names a register (30_encoding.md R41). -/

namespace Sys2Proof

/-- A register operand byte names a register exactly when it is at most 7 (10_state.md R16, 30_encoding.md R41).
Every immediate is legal (R42). -/
def Instr.wf (i : Instr) : Bool :=
  i.regOperands.all fun b => decide (b.toNat ≤ 7)

end Sys2Proof
end

