-- ==== Sys2Proof/Decode.lean ====
section
/-! DEFINITION. The opcode map, the instruction lengths, the decoder and the encoder (30_encoding.md R40 to R47). -/

namespace Sys2Proof

/-! ## The opcode map -/

/-- The default of the parameter `OPC` (30_encoding.md R43).
PRESUMED (log entry 1, unsafe): the byte values are the LS-8 family's; the source prints none (decision D1). -/
def opcDefault : OpcodeMap where
  halt := 0x01
  ldi  := 0x82
  prn  := 0x47
  mul  := 0xA2
  cmp  := 0xA7
  push := 0x45
  pop  := 0x46
  jmp  := 0x54
  jeq  := 0x55
  jne  := 0x56
  call := 0x50
  ret  := 0x11
  add  := 0xA0

/-- The specified machine: default opcode bytes, `ADD_ENABLE = false` (00_scope.md R6, decision D3; log entry 3),
`PREFETCH_FALLBACK = 0` (R5, decision D5). -/
def configDefault : Config where
  opc := opcDefault
  addEnable := false
  prefetchFallback := 0

/-- The machine configured with `ADD_ENABLE = true` and otherwise the defaults (00_scope.md R6, 42_alu.md R71). -/
def configWithAdd : Config := { configDefault with addEnable := true }

/-- Every row of the instruction table, in its order (30_encoding.md R43). -/
def opcodes : List Opcode :=
  [.halt, .ldi, .prn, .mul, .cmp, .push, .pop, .jmp, .jeq, .jne, .call, .ret, .add]

/-- The opcode byte a configuration gives a mnemonic (30_encoding.md R43, R45). -/
def Config.byteOf (c : Config) : Opcode → Byte
  | .halt => c.opc.halt
  | .ldi  => c.opc.ldi
  | .prn  => c.opc.prn
  | .mul  => c.opc.mul
  | .cmp  => c.opc.cmp
  | .push => c.opc.push
  | .pop  => c.opc.pop
  | .jmp  => c.opc.jmp
  | .jeq  => c.opc.jeq
  | .jne  => c.opc.jne
  | .call => c.opc.call
  | .ret  => c.opc.ret
  | .add  => c.opc.add

/-- Whether a mnemonic is decodable: ADD only with `ADD_ENABLE` (00_scope.md R6), the other twelve always. -/
def Config.enables (c : Config) : Opcode → Bool
  | .add => c.addEnable
  | .halt | .ldi | .prn | .mul | .cmp | .push | .pop | .jmp | .jeq | .jne | .call | .ret => true

/-- The constraint on `OPC`: "the opcode values of the enabled mnemonics must be pairwise distinct bytes"
(30_encoding.md R45). -/
def Config.distinct (c : Config) : Bool :=
  opcodes.all fun o => opcodes.all fun p =>
    !(c.enables o && c.enables p && c.byteOf o == c.byteOf p) || o == p

/-- `decode(b0)` of 30_encoding.md R44: the whole byte is compared with each enabled opcode value; `none` is
"unrecognised" (R46). -/
def opcodeOf (c : Config) (b0 : Byte) : Option Opcode :=
  opcodes.find? fun o => c.enables o && c.byteOf o == b0

/-! ## Formats and lengths -/

/-- The format column of 30_encoding.md R43. -/
def formatOf : Opcode → Format
  | .halt => .z
  | .ldi  => .ri
  | .prn  => .r
  | .mul  => .rr
  | .cmp  => .rr
  | .push => .r
  | .pop  => .r
  | .jmp  => .r
  | .jeq  => .r
  | .jne  => .r
  | .call => .r
  | .ret  => .z
  | .add  => .rr

/-- The length of a format in bytes (30_encoding.md R40). -/
def formatLength : Format → Nat
  | .z  => 1
  | .r  => 2
  | .rr => 3
  | .ri => 3

/-- `len(I)`: the byte-length, by the table alone (30_encoding.md R47). -/
def lengthOf (o : Opcode) : Nat := formatLength (formatOf o)

/-! ## The decoder -/

/-- Why bytes are no instruction. -/
inductive DecodeReject where
  /-- There is no byte at all. -/
  | noByte
  /-- The opcode byte is unrecognised (30_encoding.md R46). -/
  | unrecognised (b0 : Byte)
  /-- The opcode is recognised and its operand bytes are not all there; `present` of them are. -/
  | missingOperand (o : Opcode) (present : Nat)
  deriving DecidableEq, Repr

/-- What the decoder answers: the instruction and the bytes after it, or a rejection by name. -/
abbrev DecodeResult := Except DecodeReject (Instr × List Byte)

/-- An instruction of format Z and the bytes after it. -/
def operandsZ (i : Instr) (rest : List Byte) : DecodeResult := .ok (i, rest)

/-- One operand byte, `operand1` (format R). -/
def operandsR (o : Opcode) (f : Byte → Instr) : List Byte → DecodeResult
  | b1 :: rest => .ok (f b1, rest)
  | []         => .error (.missingOperand o 0)

/-- Two operand bytes, `operand1` then `operand2` (formats RR and RI; 20_memory.md R29). -/
def operandsRR (o : Opcode) (f : Byte → Byte → Instr) : List Byte → DecodeResult
  | b1 :: b2 :: rest => .ok (f b1 b2, rest)
  | [_]              => .error (.missingOperand o 1)
  | []               => .error (.missingOperand o 0)

/-- The operand bytes of a recognised opcode (30_encoding.md R40, R41, R42). Nothing is masked or checked here. -/
def decodeOperands : Opcode → List Byte → DecodeResult
  | .halt => operandsZ .halt
  | .ldi  => operandsRR .ldi Instr.ldi
  | .prn  => operandsR .prn Instr.prn
  | .mul  => operandsRR .mul Instr.mul
  | .cmp  => operandsRR .cmp Instr.cmp
  | .push => operandsR .push Instr.push
  | .pop  => operandsR .pop Instr.pop
  | .jmp  => operandsR .jmp Instr.jmp
  | .jeq  => operandsR .jeq Instr.jeq
  | .jne  => operandsR .jne Instr.jne
  | .call => operandsR .call Instr.call
  | .ret  => operandsZ .ret
  | .add  => operandsRR .add Instr.add

/-- The decoder, total on any bytes: the opcode byte alone decides (30_encoding.md R44), then the operand bytes. -/
def decode (c : Config) : List Byte → DecodeResult
  | []         => .error .noByte
  | b0 :: rest =>
    match opcodeOf c b0 with
    | none   => .error (.unrecognised b0)
    | some o => decodeOperands o rest

/-! ## The encoder -/

/-- The operand bytes of an instruction, in memory order (30_encoding.md R40). -/
def operandBytes : Instr → List Byte
  | .halt      => []
  | .ldi r imm => [r, imm]
  | .prn r     => [r]
  | .mul a b   => [a, b]
  | .cmp a b   => [a, b]
  | .push r    => [r]
  | .pop r     => [r]
  | .jmp r     => [r]
  | .jeq r     => [r]
  | .jne r     => [r]
  | .call r    => [r]
  | .ret       => []
  | .add a b   => [a, b]

/-- The bytes of an instruction, opcode at the lowest address (30_encoding.md R40, 20_memory.md R29). -/
def encode (c : Config) (i : Instr) : List Byte := c.byteOf i.opcode :: operandBytes i

/-! ## Words numbered as the opcode table numbers them -/

/-- Byte `k` of a word whose bit 0 is the least significant bit of the first byte; bits at and above `nbits` are 0. -/
def tableByte (nbits w k : Nat) : Byte := BitVec.ofNat 8 (w % 2 ^ nbits / 256 ^ k)

/-- The three bytes, the longest instruction, that a table word stands for. -/
def tableBytes (nbits w : Nat) : List Byte := [tableByte nbits w 0, tableByte nbits w 1, tableByte nbits w 2]

/-- The instruction the decoder reads from a word of spec/opcode_table.json. The table's thirteen rows are those of the
machine with `ADD_ENABLE = true` ("enabled_by" of its ADD row), so that is the configuration here (log entry 3). -/
def decodeTableWord (nbits w : Nat) : Option Instr :=
  match decode configWithAdd (tableBytes nbits w) with
  | .ok (i, _) => some i
  | .error _   => none

end Sys2Proof
end

