-- ==== Sys2Proof/Machine/Params.lean ====
section
/-! DEFINITION. The values reset gives the state, one parameter each (00_scope.md R4, R5; 10_state.md R21). -/

namespace Sys2Proof.Machine

/-- `SP_RESET` (00_scope.md R4): "initialized to 255". UNVERIFIED (log entry 18): decision D22. -/
def spReset : Byte := 255

/-- `PC_RESET` (00_scope.md R4): "Initialized to 0". -/
def pcReset : Byte := 0

/-- `REG_RESET` (00_scope.md R5): the value of x[0..6] at reset. DESIGN CHOICE (log entry 4, unsafe): decision D9. -/
def regReset : Byte := 0

/-- `FLAGS_RESET` (00_scope.md R5), each of E, L, G. DESIGN CHOICE (log entry 6, unsafe): decision D8. -/
def flagReset : Bool := false

/-- `MEM_FILL` (00_scope.md R5): what a cell that nothing has written reads as. DESIGN CHOICE (log entry 5, unsafe): decision D10. -/
def memFill : Byte := 0

/-- The configuration of the specified machine at reset (00_scope.md R5, R6). -/
def configReset : Config := configDefault

end Sys2Proof.Machine
end

