-- ==== Sys2Proof/Machine/State.lean ====
section
/-! DEFINITION. The state of the Engine, all of it (10_state.md R10), the reasons a step can stop, and the reset state. -/

namespace Sys2Proof.Machine

/-- The three condition bits (10_state.md R14): "three independent boolean bits". -/
structure Flags where
  /-- Equal. -/
  e : Bool
  /-- Less. -/
  l : Bool
  /-- Greater. -/
  g : Bool
  deriving DecidableEq, Repr

/-- The sub-causes of an `AddressingError` (60_exceptions.md R91). -/
inductive AddressingSub where
  | pcRange
  | spRange
  | regIndex
  deriving DecidableEq, Repr

/-- Cause and sub-cause of an Engine fault (60_exceptions.md R91): only an addressing error has a sub-cause. -/
inductive FaultCause where
  /-- R92: the opcode byte is unrecognised. -/
  | decodeError
  /-- R93: `pc`, `SP` or a register index would leave its range. -/
  | addressingError (sub : AddressingSub)
  /-- R94: in the spec's taxonomy, raised by no rule (42_alu.md R70, decision D21; log entry 19). -/
  | aluContractError
  deriving DecidableEq, Repr

/-- The fault record `f = (cause, sub, at, info)` (60_exceptions.md R90). -/
structure FaultRecord where
  cause : FaultCause
  /-- `at`: the address of the opcode byte of the faulting instruction. -/
  atPc : Byte
  info : Byte
  deriving DecidableEq, Repr

/-- The loop's state machine (10_state.md R17). The source's bit `Halted` is 1 exactly in `halted` (R10, R22 (d);
log entry 8). -/
inductive Status where
  | running
  | halted
  | faulted (f : FaultRecord)
  deriving DecidableEq, Repr

/-- Memory: address and byte pairs, addresses strictly rising, all below 256, no entry equal to `memFill`
(20_memory.md R25; the form is `Memory.wf`). An address that is not listed reads as `memFill`. -/
abbrev Memory := List Host.Cell

/-- The architectural state (10_state.md R10), and the configuration it runs under (log entry 2). -/
structure State where
  /-- `x[0..7]` (R11); `x[7]` is the stack pointer (R12). -/
  regs : Vector Byte 8
  /-- The program counter (R13). -/
  pc : Byte
  /-- E, L, G (R14). -/
  flags : Flags
  /-- `M[0..255]` (20_memory.md R25). -/
  mem : Memory
  /-- `Status` and with it `Halted` (R15, R17). -/
  status : Status
  /-- `Out`: the bytes emitted since reset, oldest first (R18). -/
  out : List Byte
  /-- The model's own field: the implementation parameters (00_scope.md R5, R6). No step writes it. -/
  cfg : Config
  deriving DecidableEq, Repr

/-- Why `step` has no next state. An Engine fault is NOT one of these: it is a next state whose `Status` is `Faulted`
(60_exceptions.md R90). DESIGN CHOICE (log entry 7): "When Status is Halted or Faulted(f) there is no step"
(40_step_loop.md R50). -/
inductive Fault where
  /-- Raised by `step` alone, in `Status = Halted`. Safe: the Engine does nothing either. -/
  | noStepHalted
  /-- Raised by `step` alone, in `Status = Faulted(f)`. Safe: the Engine does nothing either. -/
  | noStepFaulted (f : FaultRecord)
  deriving DecidableEq, Repr

/-- Why an instruction has no meaning. No arm of `exec` uses it: every instruction of the table is modelled. -/
inductive Refusal where
  /-- Raised by an arm of `exec` for an instruction that has no meaning yet. Safe: nothing follows from it. -/
  | notModelled (mnemonic : String)
  deriving DecidableEq, Repr

/-- What executing an instruction answers. -/
abbrev Result := Host.Outcome State Fault Refusal

/-- The state right after reset with the empty program image (10_state.md R21, 70_reset_and_hazards.md R110). -/
def State.reset : State where
  regs   := #v[regReset, regReset, regReset, regReset, regReset, regReset, regReset, spReset]
  pc     := pcReset
  flags  := ⟨flagReset, flagReset, flagReset⟩
  mem    := []
  status := .running
  out    := []
  cfg    := configReset

end Sys2Proof.Machine
end

