-- ==== Sys2Proof/Machine/Ops.lean ====
section
/-! DEFINITION. The named operations over memory and registers, and raising a fault, the Engine's only exception
(20_memory.md R26, R27; 10_state.md R11 to R18; 60_exceptions.md R90). -/

namespace Sys2Proof.Machine

/-! ## Memory -/

/-- `MemRead(a, 1)` (20_memory.md R26): the listed byte, or the fill value. -/
def Memory.read : Memory → Byte → Byte
  | [], _ => memFill
  | (b, w) :: m, a => if b = a.toNat then w else Memory.read m a

/-- The list without the entries of address `a`. -/
def Memory.erase (m : Memory) (a : Nat) : Memory := m.filter fun c => c.1 != a

/-- An entry put before the first greater address. -/
def Memory.insert : Memory → Nat → Byte → Memory
  | [], a, v => [(a, v)]
  | (b, w) :: m, a, v => if a < b then (a, v) :: (b, w) :: m else (b, w) :: Memory.insert m a v

/-- `MemWrite(a, 1, v)` (20_memory.md R27): sets the one cell. The canonical form is kept: a cell that holds the fill
value is not listed. -/
def Memory.write (m : Memory) (a v : Byte) : Memory :=
  if v = memFill then m.erase a.toNat else (m.erase a.toNat).insert a.toNat v

/-- The addresses rise strictly. -/
def Memory.rising : Memory → Bool
  | [] => true
  | [_] => true
  | c :: d :: m => decide (c.1 < d.1) && Memory.rising (d :: m)

/-- The canonical form: rising addresses, all inside the 256 cells (20_memory.md R25), no entry that reads as an unlisted
address does. -/
def Memory.wf (m : Memory) : Bool :=
  m.rising && m.all fun c => decide (c.1 < memSize) && c.2 != memFill

/-! ## Registers, program counter, flags, output -/

/-- `x[k]` (10_state.md R11): no register is hard-wired, all eight alike. -/
def State.reg (s : State) (k : RegIdx) : Byte := s.regs[k]

/-- `x[k] <- v` (10_state.md R11). -/
def State.setReg (s : State) (k : RegIdx) (v : Byte) : State := { s with regs := s.regs.set k v }

/-- `SP`, shorthand for `x[7]` (00_scope.md R7, 10_state.md R12). -/
def State.sp (s : State) : Byte := s.reg spIndex

/-- `SP <- v`. -/
def State.setSp (s : State) (v : Byte) : State := s.setReg spIndex v

/-- `pc <- t` (00_scope.md R7). -/
def State.setPc (s : State) (t : Byte) : State := { s with pc := t }

/-- The three flags are written together, by CMP alone (10_state.md R14). -/
def State.setFlags (s : State) (f : Flags) : State := { s with flags := f }

/-- `M[a]` (20_memory.md R26). -/
def State.load (s : State) (a : Byte) : Byte := s.mem.read a

/-- `M[a] <- v` (20_memory.md R27). -/
def State.store (s : State) (a v : Byte) : State := { s with mem := s.mem.write a v }

/-- `Out <- Out ++ [v]` (10_state.md R18, 41_load_output.md R61). -/
def State.emit (s : State) (v : Byte) : State := { s with out := s.out ++ [v] }

/-- `Halted <- 1; Status <- Halted` (40_step_loop.md R57). -/
def State.halt (s : State) : State := { s with status := .halted }

/-- The bit `Halted` (10_state.md R15, R22 (d); log entry 8). -/
def State.halted (s : State) : Bool := s.status == .halted

/-! ## Arithmetic on exact integers, narrowed at the end -/

/-- `n mod 256` as a byte (00_scope.md R7, 42_alu.md R67). -/
def narrow (n : Nat) : Byte := BitVec.ofNat 8 n

/-! ## Faults: the Engine's only exceptions -/

/-- The state after `raise F(sub, info)`: `Status` holds the record, `at` is the unchanged `pc`, "nothing else changes:
registers, pc, flags, Halted (stays 0), memory, Out" (60_exceptions.md R90). -/
def State.raised (s : State) (c : FaultCause) (info : Byte) : State := { s with status := .faulted ⟨c, s.pc, info⟩ }

/-- Taking a fault: a next state (40_step_loop.md R50: "the same state with Status = Faulted(f)"). There is no vector and
no return (60_exceptions.md R96, R97). -/
def raise (c : FaultCause) (info : Byte) (s : State) : Result := .next (s.raised c info)

/-- The numeric code of a cause (60_exceptions.md R91). UNVERIFIED (log entry 14): decision D13. -/
def FaultCause.code : FaultCause → Nat
  | .decodeError => 1
  | .addressingError _ => 2
  | .aluContractError => 3

/-- The numeric sub-code of a cause, 0 for "no sub-cause" (60_exceptions.md R91). -/
def FaultCause.subCode : FaultCause → Nat
  | .decodeError => 0
  | .addressingError .pcRange => 1
  | .addressingError .spRange => 2
  | .addressingError .regIndex => 3
  | .aluContractError => 0

end Sys2Proof.Machine
end

