-- ==== Sys2Proof/Machine/Operands.lean ====
section
/-! DEFINITION. The checks that stand before an instruction's effects, each once (40_step_loop.md R56, checks (2) to (5)).
A meaning writes them in the order of R55; each either raises its fault or goes on with the value it has checked. -/

namespace Sys2Proof.Machine

/-- Check (2): the last byte of the instruction is at `pc + len - 1`, which must be an address (40_step_loop.md R52). -/
def needBytes (o : Opcode) (s : State) (k : Result) : Result :=
  if s.pc.toNat + lengthOf o - 1 ≤ 255 then k
  else raise (.addressingError .pcRange) (narrow (s.pc.toNat + lengthOf o - 1)) s

/-- Check (3): a register operand byte must be at most 7; the whole byte is the index (40_step_loop.md R53,
10_state.md R16, 30_encoding.md R41). -/
def withReg (b : Byte) (s : State) (k : RegIdx → Result) : Result :=
  if h : b.toNat < 8 then k ⟨b.toNat, h⟩
  else raise (.addressingError .regIndex) b s

/-- Check (3) for format RR: `b1` before `b2` (40_step_loop.md R53). -/
def withRegs (b1 b2 : Byte) (s : State) (k : RegIdx → RegIdx → Result) : Result :=
  withReg b1 s fun a => withReg b2 s fun b => k a b

/-- Check (4) of a push: the pointer before the decrement must be at least 1; the continuation gets the decremented
pointer (43_stack.md R75). -/
def withDecrementedSp (s : State) (k : Byte → Result) : Result :=
  if 1 ≤ s.sp.toNat then k (narrow (s.sp.toNat - 1))
  else raise (.addressingError .spRange) 255 s

/-- Check (4) of a pop: the pointer `p` about to be incremented must stay at most 255; the continuation gets the
incremented pointer (43_stack.md R75, R77). -/
def withIncrementedSp (p : Byte) (s : State) (k : Byte → Result) : Result :=
  if p.toNat + 1 ≤ 255 then k (narrow (p.toNat + 1))
  else raise (.addressingError .spRange) (narrow (p.toNat + 1)) s

/-- Check (5): the successor address `pc + len` (for CALL, the return address) must be at most 255; the continuation gets
it (40_step_loop.md R54, 44_control.md R84). -/
def withSuccessor (o : Opcode) (s : State) (k : Byte → Result) : Result :=
  if s.pc.toNat + lengthOf o ≤ 255 then k (narrow (s.pc.toNat + lengthOf o))
  else raise (.addressingError .pcRange) (narrow (s.pc.toNat + lengthOf o)) s

/-- The operand byte that names a register, zero in the upper five bits. -/
def regByte (k : RegIdx) : Byte := BitVec.ofNat 8 k.val

end Sys2Proof.Machine
end

