-- ==== Sys2Proof/Machine/Flags.lean ====
section
/-! DEFINITION. The one flag computation: CMP's (42_alu.md R69). No other instruction writes a flag (10_state.md R14). -/

namespace Sys2Proof.Machine

/-- The flags of a comparison of unsigned values: exactly one is set (42_alu.md R69). -/
def compareFlags (x y : Byte) : Flags :=
  if x = y then ⟨true, false, false⟩
  else if x.toNat < y.toNat then ⟨false, true, false⟩
  else ⟨false, false, true⟩

end Sys2Proof.Machine
end

