-- ==== Sys2Proof/Machine/Alu.lean ====
section
/-! DEFINITION. The arithmetic/logic unit and its instructions MUL, CMP, ADD (42_alu.md). -/

namespace Sys2Proof.Machine

/-- ALU operation ADD: the exact sum, low 8 bits (42_alu.md R66, R67). -/
def aluAdd (a b : RegIdx) (s : State) : State :=
  s.setReg a (narrow ((s.reg a).toNat + (s.reg b).toNat))

/-- ALU operation MUL: the exact product, low 8 bits (42_alu.md R67, R68). -/
def aluMul (a b : RegIdx) (s : State) : State :=
  s.setReg a (narrow ((s.reg a).toNat * (s.reg b).toNat))

/-- ALU operation CMP: the flags alone (42_alu.md R69). -/
def aluCmp (a b : RegIdx) (s : State) : State :=
  s.setFlags (compareFlags (s.reg a) (s.reg b))

/-- What the three instructions share: the checks (2), (3), (5) of 40_step_loop.md R56, one ALU operation, `pc + 3`.
The ALU has no other operation (42_alu.md R65, R70), so the operation is one of the three above. -/
def aluInstr (o : Opcode) (op : RegIdx → RegIdx → State → State) (a b : Byte) (s : State) : Result :=
  needBytes o s <| withRegs a b s fun a b => withSuccessor o s fun next =>
    .next ((op a b s).setPc next)

/-- MUL a, b (42_alu.md R68). -/
def execMul (a b : Byte) (s : State) : Result := aluInstr .mul aluMul a b s

/-- CMP a, b (42_alu.md R69). -/
def execCmp (a b : Byte) (s : State) : Result := aluInstr .cmp aluCmp a b s

/-- ADD a, b (42_alu.md R71). That it is decodable only with `ADD_ENABLE` is the decoder's matter. -/
def execAdd (a b : Byte) (s : State) : Result := aluInstr .add aluAdd a b s

end Sys2Proof.Machine
end

