-- ==== Sys2Proof/Machine/Stack.lean ====
section
/-! DEFINITION. PUSH and POP (43_stack.md). The effects are a sequence of assignments, each taking effect before the
next is evaluated (R78, 00_scope.md R8): this is where register 7 as the operand gets its meaning. -/

namespace Sys2Proof.Machine

/-- The push discipline: `SP <- p`, then `M[SP] <- value`, where the value may depend on the state after the decrement
(43_stack.md R75, R78). -/
def pushed (s : State) (p : Byte) (value : State → Byte) : State :=
  let s1 := s.setSp p
  s1.store s1.sp (value s1)

/-- PUSH r (43_stack.md R76): `x[r]` is read after the decrement. -/
def execPush (r : Byte) (s : State) : Result :=
  needBytes .push s <| withReg r s fun r => withDecrementedSp s fun p => withSuccessor .push s fun next =>
    .next ((pushed s p fun s1 => s1.reg r).setPc next)

/-- POP r (43_stack.md R77): `x[r] <- M[x[7]]`, then `x[7]` is read again and incremented; for `POP R7` that is the popped
byte plus 1 (R78). The check is on the value about to be incremented, and a fault leaves `s` as it was. -/
def execPop (r : Byte) (s : State) : Result :=
  needBytes .pop s <| withReg r s fun r =>
    let s1 := s.setReg r (s.load s.sp)
    withIncrementedSp s1.sp s fun p => withSuccessor .pop s fun next =>
      .next ((s1.setSp p).setPc next)

end Sys2Proof.Machine
end

