-- ==== Sys2Proof/Machine/Control.lean ====
section
/-! DEFINITION. JMP, JEQ, JNE, CALL, RET (44_control.md) and HALT (40_step_loop.md R57). -/

namespace Sys2Proof.Machine

/-- JMP r (44_control.md R81). -/
def execJmp (r : Byte) (s : State) : Result :=
  needBytes .jmp s <| withReg r s fun r => .next (s.setPc (s.reg r))

/-- A conditional jump: the register byte is checked taken or not (40_step_loop.md R53), the successor only when not taken
(R54). -/
def jumpIf (o : Opcode) (taken : Bool) (r : Byte) (s : State) : Result :=
  needBytes o s <| withReg r s fun r =>
    if taken then .next (s.setPc (s.reg r))
    else withSuccessor o s fun next => .next (s.setPc next)

/-- JEQ r (44_control.md R82): jumps if and only if E is set. -/
def execJeq (r : Byte) (s : State) : Result := jumpIf .jeq s.flags.e r s

/-- JNE r (44_control.md R83): jumps if and only if E is clear. -/
def execJne (r : Byte) (s : State) : Result := jumpIf .jne (!s.flags.e) r s

/-- CALL r (44_control.md R84): the return address `pc + 2` is pushed, then `pc <- x[r]`, read after the push. -/
def execCall (r : Byte) (s : State) : Result :=
  needBytes .call s <| withReg r s fun r => withDecrementedSp s fun p => withSuccessor .call s fun ra =>
    let s1 := pushed s p fun _ => ra
    .next (s1.setPc (s1.reg r))

/-- RET (44_control.md R85): its one fault is the stack pointer's. -/
def execRet (s : State) : Result :=
  withIncrementedSp s.sp s fun p => .next ((s.setSp p).setPc (s.load s.sp))

/-- HALT (40_step_loop.md R57): never faults; `pc <- (pc + 1) mod 256`, the one wrap of the machine. -/
def execHalt (s : State) : Result :=
  .next (s.halt.setPc (narrow (s.pc.toNat + lengthOf .halt)))

end Sys2Proof.Machine
end

