-- ==== Sys2Proof/Machine/LoadOutput.lean ====
section
/-! DEFINITION. LDI and PRN (41_load_output.md). -/

namespace Sys2Proof.Machine

/-- LDI r, imm (41_load_output.md R60). -/
def execLdi (r imm : Byte) (s : State) : Result :=
  needBytes .ldi s <| withReg r s fun r => withSuccessor .ldi s fun next =>
    .next ((s.setReg r imm).setPc next)

/-- PRN r (41_load_output.md R61): the byte goes to the output channel, which never refuses it. -/
def execPrn (r : Byte) (s : State) : Result :=
  needBytes .prn s <| withReg r s fun r => withSuccessor .prn s fun next =>
    .next ((s.emit (s.reg r)).setPc next)

end Sys2Proof.Machine
end

