-- ==== Sys2Proof/Machine/Fetch.lean ====
section
/-! DEFINITION. Fetching an instruction's bytes, and placing bytes where the next fetch reads them (40_step_loop.md R51). -/

namespace Sys2Proof.Machine

/-- A prefetched byte, `k` above `pc`: a bounds-checked read that does not wrap; beyond address 255 it is the fallback
(40_step_loop.md R51). -/
def prefetch (s : State) (k : Nat) : Byte :=
  if s.pc.toNat + k ≤ 255 then s.load (narrow (s.pc.toNat + k)) else s.cfg.prefetchFallback

/-- `b0, b1, b2`: always three bytes, "regardless of the instruction's true size" (40_step_loop.md R51). -/
def fetchWindow (s : State) : List Byte := [s.load s.pc, prefetch s 1, prefetch s 2]

/-- Check (1) failed: `DecodeError(info = b0)` (40_step_loop.md R52, 60_exceptions.md R92). -/
def raiseDecodeError (s : State) : Result := raise .decodeError (s.load s.pc) s

/-- Bytes stored upward from an address; those beyond 255 are not stored, as the fetch would not read them. -/
def placeBytes (s : State) (a : Nat) : List Byte → State
  | [] => s
  | b :: bs => placeBytes (if a ≤ 255 then s.store (narrow a) b else s) (a + 1) bs

/-- `ADD_ENABLE` switched on where the first byte is ADD's opcode and is not recognised without it (00_scope.md R6). -/
def enableForOpcode (c : Config) (b0 : Byte) : Config :=
  if (opcodeOf c b0).isNone && b0 == c.byteOf .add then { c with addEnable := true } else c

/-- A table word placed at `pc`, on a machine whose configuration has that row of the table (log entry 3). -/
def placeTableWord (s : State) (nbits w : Nat) : State :=
  placeBytes { s with cfg := enableForOpcode s.cfg (tableByte nbits w 0) } s.pc.toNat (tableBytes nbits w)

end Sys2Proof.Machine
end

