-- ==== Sys2Proof/Machine/Step.lean ====
section
/-! DEFINITION. The step (40_step_loop.md R50, R56), and placing an instruction where it fetches. -/

namespace Sys2Proof.Machine

/-- One step: fetch, decode, and the instruction's checks and effects (40_step_loop.md R56). It is defined only in
`Status = Running` (R50); in a terminal status there is none (log entry 7). -/
def step (s : State) : Host.Outcome State Fault Refusal :=
  match s.status with
  | .halted => .fault .noStepHalted
  | .faulted f => .fault (.noStepFaulted f)
  | .running =>
    match decode s.cfg (fetchWindow s) with
    | .ok (i, _) => exec i s
    | .error _ => raiseDecodeError s

/-- `s` with the instruction of a table word at `pc`, where `step` fetches its next instruction (log entries 3 and 9). -/
def State.withFetchWord (s : State) (nbits w : Nat) : State := placeTableWord s nbits w

end Sys2Proof.Machine
end

