-- ==== Sys2Proof/Machine/Load.lean ====
section
/-! DEFINITION. The load interface: reset with a program image (70_reset_and_hazards.md R110, R111). -/

namespace Sys2Proof.Machine

/-- Why the host does not start the Engine (60_exceptions.md R98: a load error "aborts before execution"). -/
inductive LoadError where
  /-- "An image longer than 256 bytes cannot be loaded" (70_reset_and_hazards.md R111, decision D20). -/
  | imageTooLong
  /-- A program line that is no binary literal of at most 8 digits (30_encoding.md R48). -/
  | malformedLiteral
  deriving DecidableEq, Repr

/-- `LOAD_BASE`: the address of the first program byte (00_scope.md R4). -/
def loadBase : Nat := 0

/-- `reset(P)` of 70_reset_and_hazards.md R111 under a configuration: the image from address 0 upward, every other cell the
fill value, all else as 10_state.md R21 says. -/
def State.resetWith (c : Config) (image : List Byte) : Except LoadError State :=
  if image.length ≤ memSize then .ok (placeBytes { State.reset with cfg := c } loadBase image)
  else .error .imageTooLong

end Sys2Proof.Machine
end

