-- ==== Sys2Proof/Machine/Text.lean ====
section
/-! DEFINITION. The textual forms: program file lines (30_encoding.md R48) and mnemonics (R49). Nothing in the Engine reads
them. -/

namespace Sys2Proof.Machine

/-! ## Program files: one binary literal a line -/

/-- The characters without leading white space. -/
def trimLeft (cs : List Char) : List Char := cs.dropWhile Char.isWhitespace

/-- "the substring before the first `#`, trimming whitespace" (30_encoding.md R48). -/
def lineBody (cs : List Char) : List Char :=
  (trimLeft (trimLeft (cs.takeWhile (· != '#'))).reverse).reverse

/-- The value of a base-2 integer read from the left, after the digits that gave `acc`. -/
def binaryFrom : Nat → List Char → Option Nat
  | acc, [] => some acc
  | acc, '0' :: cs => binaryFrom (2 * acc) cs
  | acc, '1' :: cs => binaryFrom (2 * acc + 1) cs
  | _, _ :: _ => none

/-- One line: nothing, or one byte, or a load error. DESIGN CHOICE (log entry 11, safe): a literal of more than 8 digits is
a load error whatever its value ("an 8-digit (or shorter) binary literal", 30_encoding.md R48). -/
def parseLine (cs : List Char) : Except LoadError (Option Byte) :=
  if lineBody cs = [] then .ok none
  else if 8 < (lineBody cs).length then .error .malformedLiteral
  else match binaryFrom 0 (lineBody cs) with
    | some n => .ok (some (narrow n))
    | none   => .error .malformedLiteral

/-- "one byte per non-blank non-comment-only line", in line order (30_encoding.md R48). -/
def parseProgram : List (List Char) → Except LoadError (List Byte)
  | [] => .ok []
  | l :: ls =>
    match parseLine l, parseProgram ls with
    | .ok (some b), .ok bs => .ok (b :: bs)
    | .ok none, .ok bs     => .ok bs
    | .error e, _          => .error e
    | .ok _, .error e      => .error e

/-- Program text loaded and the Engine reset (70_reset_and_hazards.md R112, events (2) and (3)). -/
def State.resetWithText (c : Config) (lines : List (List Char)) : Except LoadError State :=
  match parseProgram lines with
  | .ok image => State.resetWith c image
  | .error e  => .error e

/-! ## Mnemonics -/

/-- `Rr`, the register decimal (30_encoding.md R49). -/
def regText (r : Byte) : String := "R" ++ toString r.toNat

/-- The mnemonic form of an instruction (30_encoding.md R49): "The first operand is always b1 and the second b2". -/
def instrText : Instr → String
  | .halt      => "HALT"
  | .ldi r imm => "LDI " ++ regText r ++ "," ++ toString imm.toNat
  | .prn r     => "PRN " ++ regText r
  | .mul a b   => "MUL " ++ regText a ++ "," ++ regText b
  | .cmp a b   => "CMP " ++ regText a ++ "," ++ regText b
  | .push r    => "PUSH " ++ regText r
  | .pop r     => "POP " ++ regText r
  | .jmp r     => "JMP " ++ regText r
  | .jeq r     => "JEQ " ++ regText r
  | .jne r     => "JNE " ++ regText r
  | .call r    => "CALL " ++ regText r
  | .ret       => "RET"
  | .add a b   => "ADD " ++ regText a ++ "," ++ regText b

end Sys2Proof.Machine
end

