-- ==== Sys2Proof/Safety.lean ====
section
/-! DEFINITION. The terms claims are stated in: runs and their ends, a safe program, the invariant, and the fault an
instruction must raise, written from the rules a second time. -/

namespace Sys2Proof.Machine

/-! ## Runs and their ends (40_step_loop.md R50, R58) -/

/-- `t` is reached from `s` by steps. -/
inductive Reaches : State → State → Prop where
  | refl (s : State) : Reaches s s
  | tail {s t u : State} : Reaches s t → step t = .next u → Reaches s u

/-- The run of 40_step_loop.md R50, cut off after `n` steps; it stays where it ended. -/
def runFor : Nat → State → State
  | 0, s => s
  | n + 1, s =>
    match step s with
    | .next t    => runFor n t
    | .fault _   => s
    | .refused _ => s

/-- "a normal end if Status = Halted" (40_step_loop.md R58). -/
def State.endedNormally (s : State) : Prop := s.status = .halted

/-- "an abnormal end if Status = Faulted(f)" (40_step_loop.md R58). -/
def State.endedAbnormally (s : State) : Prop := ∃ f, s.status = .faulted f

/-- What the host may observe (70_reset_and_hazards.md R114, 40_step_loop.md R58): the output and the status. -/
def State.hostView (s : State) : List Byte × Status := (s.out, s.status)

/-- A safe run never faults: "a program none of whose reachable steps raises a fault" (00_scope.md, glossary,
"Well-formed program"). -/
def SafeProgram (c : Config) (image : List Byte) : Prop :=
  ∃ s, State.resetWith c image = .ok s ∧ ∀ t, Reaches s t → ¬ t.endedAbnormally

/-! ## The invariant (10_state.md R22) -/

/-- At most one of E, L, G is set (R22 (c)). -/
def Flags.atMostOne (f : Flags) : Bool := !(f.e && f.l) && !(f.e && f.g) && !(f.l && f.g)

/-- Exactly one of E, L, G is set (10_state.md R14, 42_alu.md R69). -/
def Flags.exactlyOne (f : Flags) : Bool := f.atMostOne && (f.e || f.l || f.g)

/-- A fault record tells the truth about the state it stands in (60_exceptions.md R90 to R94): `at` is the unchanged `pc`,
and `info` is what its cause says. -/
def FaultRecord.fits (f : FaultRecord) (s : State) : Bool :=
  f.atPc == s.pc &&
    match f.cause with
    | .decodeError => f.info == s.load s.pc && (opcodeOf s.cfg f.info).isNone
    | .addressingError .pcRange => decide (f.info.toNat ≤ 1)
    | .addressingError .spRange => f.info == 0 || f.info == 255
    | .addressingError .regIndex => decide (7 < f.info.toNat)
    | .aluContractError => false

/-- The status is `Running`, `Halted`, or a fault whose record fits. -/
def State.statusFits (s : State) : Bool :=
  match s.status with
  | .running => true
  | .halted => true
  | .faulted f => f.fits s

/-- The invariant of every reachable state: memory is canonical within its 256 cells (R22 (a)), at most one flag is set
(R22 (c)), and a fault record fits. That bytes stay bytes (R22 (b)) is the types' doing. -/
def State.Inv (s : State) : Bool := s.mem.wf && s.flags.atMostOne && s.statusFits

/-! ## The fault an instruction must raise, as the flat list of checks of 40_step_loop.md R56 -/

/-- Check (2) (R52). -/
def operandBytesFault (i : Instr) (s : State) : Option (FaultCause × Byte) :=
  if 255 < s.pc.toNat + lengthOf i.opcode - 1 then
    some (.addressingError .pcRange, narrow (s.pc.toNat + lengthOf i.opcode - 1))
  else none

/-- Check (3) (R53): the first register operand byte above 7. -/
def regIndexFault (i : Instr) : Option (FaultCause × Byte) :=
  (i.regOperands.find? fun b => decide (7 < b.toNat)).map fun b => (.addressingError .regIndex, b)

/-- A push with the pointer at 0 (43_stack.md R75). -/
def pushFault (s : State) : Option (FaultCause × Byte) :=
  if s.sp = 0 then some (.addressingError .spRange, 255) else none

/-- A pop that would increment the pointer `p` past 255 (43_stack.md R75). -/
def popFault (p : Byte) : Option (FaultCause × Byte) :=
  if p = 255 then some (.addressingError .spRange, 0) else none

/-- Check (4) (43_stack.md R75; for `POP R7` the popped byte decides, R77). -/
def stackFault (i : Instr) (s : State) : Option (FaultCause × Byte) :=
  match i with
  | .push _ => pushFault s
  | .call _ => pushFault s
  | .pop r  => popFault (if r = 7 then s.load s.sp else s.sp)
  | .ret    => popFault s.sp
  | .halt | .ldi _ _ | .prn _ | .mul _ _ | .cmp _ _ | .jmp _ | .jeq _ | .jne _ | .add _ _ => none

/-- Whether an execution needs `pc + len` to be an address: the fall-through executions other than HALT
(40_step_loop.md R54) and CALL's return address (44_control.md R84). -/
def needsSuccessor (i : Instr) (s : State) : Bool :=
  match i with
  | .ldi _ _ | .prn _ | .mul _ _ | .cmp _ _ | .push _ | .pop _ | .call _ | .add _ _ => true
  | .jeq _ => !s.flags.e
  | .jne _ => s.flags.e
  | .halt | .jmp _ | .ret => false

/-- Check (5). -/
def successorFault (i : Instr) (s : State) : Option (FaultCause × Byte) :=
  if needsSuccessor i s && decide (255 < s.pc.toNat + lengthOf i.opcode) then
    some (.addressingError .pcRange, narrow (s.pc.toNat + lengthOf i.opcode))
  else none

/-- The single fault reported: the first in the order (2) to (5) (40_step_loop.md R55, 60_exceptions.md R95). -/
def firstFault (i : Instr) (s : State) : Option (FaultCause × Byte) :=
  [operandBytesFault i s, regIndexFault i, stackFault i s, successorFault i s].findSome? id

/-- Executing `i` raises this fault and changes nothing else (60_exceptions.md R90). -/
def Raises (i : Instr) (s : State) (c : FaultCause) (info : Byte) : Prop :=
  exec i s = .next { s with status := .faulted ⟨c, s.pc, info⟩ }

/-! ## Memory seen as its cells -/

/-- Memory is the same at every address. -/
def SameMemory (s t : State) : Prop := ∀ a : Byte, t.load a = s.load a

/-- Memory is the same at every address but one. -/
def SameMemoryBut (a0 : Byte) (s t : State) : Prop := ∀ a : Byte, a ≠ a0 → t.load a = s.load a

/-- Every register is the same. -/
def SameRegs (s t : State) : Prop := ∀ k : RegIdx, t.reg k = s.reg k

/-- Every register is the same but those named. -/
def SameRegsBut (ks : List RegIdx) (s t : State) : Prop := ∀ k : RegIdx, k ∉ ks → t.reg k = s.reg k

end Sys2Proof.Machine
end

