-- ==== Sys2Proof/Certificates/Slice0/Obligations.lean ====
section
/-! DEFINITION. The statements for the provers. Where a clause rests on a decision of the spec (D<n> of
spec/92_eei_decisions.md) or on a choice of the model (a log entry), the docstring says so. -/

open Sys2Proof Sys2Proof.Machine

/-! ## One statement per instruction: when it completes, its effect, its frame, and its faults in order -/

/-- 40_step_loop.md R57. That `pc` advances by 1 and wraps at 255 is the spec's decision D7 (log entry 16). -/
def Obligations.HaltStopsTheEngine : Prop :=
  ∀ s : State, ∃ t, exec .halt s = .next t ∧
    t.status = .halted ∧ t.halted = true ∧ t.pc.toNat = (s.pc.toNat + 1) % 256 ∧
    SameRegs s t ∧ SameMemory s t ∧ t.flags = s.flags ∧ t.out = s.out ∧ t.cfg = s.cfg

/-- 41_load_output.md R60. -/
def Obligations.LdiLoadsImmediate : Prop :=
  (∀ (r : RegIdx) (imm : Byte) (s : State), s.pc.toNat + 3 ≤ 255 →
    ∃ t, exec (.ldi (regByte r) imm) s = .next t ∧
      t.reg r = imm ∧ SameRegsBut [r] s t ∧ t.pc.toNat = s.pc.toNat + 3 ∧
      SameMemory s t ∧ t.flags = s.flags ∧ t.out = s.out ∧ t.status = s.status ∧ t.cfg = s.cfg) ∧
  (∀ (b imm : Byte) (s : State), 255 < s.pc.toNat + 2 →
    Raises (.ldi b imm) s (.addressingError .pcRange) (BitVec.ofNat 8 (s.pc.toNat + 2))) ∧
  (∀ (b imm : Byte) (s : State), s.pc.toNat + 2 ≤ 255 → 7 < b.toNat →
    Raises (.ldi b imm) s (.addressingError .regIndex) b) ∧
  (∀ (r : RegIdx) (imm : Byte) (s : State), s.pc.toNat + 2 ≤ 255 → 255 < s.pc.toNat + 3 →
    Raises (.ldi (regByte r) imm) s (.addressingError .pcRange) (BitVec.ofNat 8 (s.pc.toNat + 3)))

/-- 41_load_output.md R61. -/
def Obligations.PrnEmitsRegister : Prop :=
  (∀ (r : RegIdx) (s : State), s.pc.toNat + 2 ≤ 255 →
    ∃ t, exec (.prn (regByte r)) s = .next t ∧
      t.out = s.out ++ [s.reg r] ∧ t.pc.toNat = s.pc.toNat + 2 ∧
      SameRegs s t ∧ SameMemory s t ∧ t.flags = s.flags ∧ t.status = s.status ∧ t.cfg = s.cfg) ∧
  (∀ (b : Byte) (s : State), 255 < s.pc.toNat + 1 →
    Raises (.prn b) s (.addressingError .pcRange) (BitVec.ofNat 8 (s.pc.toNat + 1))) ∧
  (∀ (b : Byte) (s : State), s.pc.toNat + 1 ≤ 255 → 7 < b.toNat →
    Raises (.prn b) s (.addressingError .regIndex) b) ∧
  (∀ (r : RegIdx) (s : State), s.pc.toNat + 1 ≤ 255 → 255 < s.pc.toNat + 2 →
    Raises (.prn (regByte r)) s (.addressingError .pcRange) (BitVec.ofNat 8 (s.pc.toNat + 2)))

/-- 42_alu.md R68. -/
def Obligations.MulWritesProductMod256 : Prop :=
  (∀ (a b : RegIdx) (s : State), s.pc.toNat + 3 ≤ 255 →
    ∃ t, exec (.mul (regByte a) (regByte b)) s = .next t ∧
      (t.reg a).toNat = ((s.reg a).toNat * (s.reg b).toNat) % 256 ∧ SameRegsBut [a] s t ∧
      t.pc.toNat = s.pc.toNat + 3 ∧
      SameMemory s t ∧ t.flags = s.flags ∧ t.out = s.out ∧ t.status = s.status ∧ t.cfg = s.cfg) ∧
  (∀ (b1 b2 : Byte) (s : State), 255 < s.pc.toNat + 2 →
    Raises (.mul b1 b2) s (.addressingError .pcRange) (BitVec.ofNat 8 (s.pc.toNat + 2))) ∧
  (∀ (b1 b2 : Byte) (s : State), s.pc.toNat + 2 ≤ 255 → 7 < b1.toNat →
    Raises (.mul b1 b2) s (.addressingError .regIndex) b1) ∧
  (∀ (a : RegIdx) (b2 : Byte) (s : State), s.pc.toNat + 2 ≤ 255 → 7 < b2.toNat →
    Raises (.mul (regByte a) b2) s (.addressingError .regIndex) b2) ∧
  (∀ (a b : RegIdx) (s : State), s.pc.toNat + 2 ≤ 255 → 255 < s.pc.toNat + 3 →
    Raises (.mul (regByte a) (regByte b)) s (.addressingError .pcRange) (BitVec.ofNat 8 (s.pc.toNat + 3)))

/-- 42_alu.md R69. -/
def Obligations.CmpSetsFlagsFromUnsignedOrder : Prop :=
  (∀ (a b : RegIdx) (s : State), s.pc.toNat + 3 ≤ 255 →
    ∃ t, exec (.cmp (regByte a) (regByte b)) s = .next t ∧
      ((s.reg a).toNat = (s.reg b).toNat → t.flags = ⟨true, false, false⟩) ∧
      ((s.reg a).toNat < (s.reg b).toNat → t.flags = ⟨false, true, false⟩) ∧
      ((s.reg b).toNat < (s.reg a).toNat → t.flags = ⟨false, false, true⟩) ∧
      t.pc.toNat = s.pc.toNat + 3 ∧
      SameRegs s t ∧ SameMemory s t ∧ t.out = s.out ∧ t.status = s.status ∧ t.cfg = s.cfg) ∧
  (∀ (b1 b2 : Byte) (s : State), 255 < s.pc.toNat + 2 →
    Raises (.cmp b1 b2) s (.addressingError .pcRange) (BitVec.ofNat 8 (s.pc.toNat + 2))) ∧
  (∀ (b1 b2 : Byte) (s : State), s.pc.toNat + 2 ≤ 255 → 7 < b1.toNat →
    Raises (.cmp b1 b2) s (.addressingError .regIndex) b1) ∧
  (∀ (a : RegIdx) (b2 : Byte) (s : State), s.pc.toNat + 2 ≤ 255 → 7 < b2.toNat →
    Raises (.cmp (regByte a) b2) s (.addressingError .regIndex) b2) ∧
  (∀ (a b : RegIdx) (s : State), s.pc.toNat + 2 ≤ 255 → 255 < s.pc.toNat + 3 →
    Raises (.cmp (regByte a) (regByte b)) s (.addressingError .pcRange) (BitVec.ofNat 8 (s.pc.toNat + 3)))

/-- 42_alu.md R66 and R71. That ADD exists as an instruction at all is the spec's decision D3 (log entry 3). -/
def Obligations.AddWritesSumMod256 : Prop :=
  (∀ (a b : RegIdx) (s : State), s.pc.toNat + 3 ≤ 255 →
    ∃ t, exec (.add (regByte a) (regByte b)) s = .next t ∧
      (t.reg a).toNat = ((s.reg a).toNat + (s.reg b).toNat) % 256 ∧ SameRegsBut [a] s t ∧
      t.pc.toNat = s.pc.toNat + 3 ∧
      SameMemory s t ∧ t.flags = s.flags ∧ t.out = s.out ∧ t.status = s.status ∧ t.cfg = s.cfg) ∧
  (∀ (b1 b2 : Byte) (s : State), 255 < s.pc.toNat + 2 →
    Raises (.add b1 b2) s (.addressingError .pcRange) (BitVec.ofNat 8 (s.pc.toNat + 2))) ∧
  (∀ (b1 b2 : Byte) (s : State), s.pc.toNat + 2 ≤ 255 → 7 < b1.toNat →
    Raises (.add b1 b2) s (.addressingError .regIndex) b1) ∧
  (∀ (a : RegIdx) (b2 : Byte) (s : State), s.pc.toNat + 2 ≤ 255 → 7 < b2.toNat →
    Raises (.add (regByte a) b2) s (.addressingError .regIndex) b2) ∧
  (∀ (a b : RegIdx) (s : State), s.pc.toNat + 2 ≤ 255 → 255 < s.pc.toNat + 3 →
    Raises (.add (regByte a) (regByte b)) s (.addressingError .pcRange) (BitVec.ofNat 8 (s.pc.toNat + 3)))

/-- 43_stack.md R76. The address stored to is the decremented stack pointer. That the byte stored is read after the
decrement, so that `PUSH R7` stores the new pointer, is the spec's decision D15 (R78; log entry 15); that the pointer fault
comes before any effect is D12 (log entry 12). -/
def Obligations.PushStoresRegister : Prop :=
  (∀ (r : RegIdx) (s : State), 1 ≤ s.sp.toNat → s.pc.toNat + 2 ≤ 255 →
    ∃ t, exec (.push (regByte r)) s = .next t ∧
      t.sp = narrow (s.sp.toNat - 1) ∧
      t.load (narrow (s.sp.toNat - 1)) = (if r = spIndex then narrow (s.sp.toNat - 1) else s.reg r) ∧
      SameRegsBut [spIndex] s t ∧ SameMemoryBut (narrow (s.sp.toNat - 1)) s t ∧
      t.pc.toNat = s.pc.toNat + 2 ∧
      t.flags = s.flags ∧ t.out = s.out ∧ t.status = s.status ∧ t.cfg = s.cfg) ∧
  (∀ (b : Byte) (s : State), 255 < s.pc.toNat + 1 →
    Raises (.push b) s (.addressingError .pcRange) (BitVec.ofNat 8 (s.pc.toNat + 1))) ∧
  (∀ (b : Byte) (s : State), s.pc.toNat + 1 ≤ 255 → 7 < b.toNat →
    Raises (.push b) s (.addressingError .regIndex) b) ∧
  (∀ (r : RegIdx) (s : State), s.pc.toNat + 1 ≤ 255 → s.sp = 0 →
    Raises (.push (regByte r)) s (.addressingError .spRange) 255) ∧
  (∀ (r : RegIdx) (s : State), s.pc.toNat + 1 ≤ 255 → s.sp ≠ 0 → 255 < s.pc.toNat + 2 →
    Raises (.push (regByte r)) s (.addressingError .pcRange) (BitVec.ofNat 8 (s.pc.toNat + 2)))

/-- 43_stack.md R77. That for `POP R7` the popped byte, not the old pointer, decides the fault, and the pointer becomes the
popped byte plus 1, is the spec's decision D15 (R78; log entry 15); that the pointer fault comes before any effect is D12
(log entry 12). -/
def Obligations.PopLoadsRegister : Prop :=
  (∀ (r : RegIdx) (s : State), r ≠ spIndex → s.sp ≠ 255 → s.pc.toNat + 2 ≤ 255 →
    ∃ t, exec (.pop (regByte r)) s = .next t ∧
      t.reg r = s.load s.sp ∧ t.sp.toNat = s.sp.toNat + 1 ∧ SameRegsBut [r, spIndex] s t ∧
      t.pc.toNat = s.pc.toNat + 2 ∧
      SameMemory s t ∧ t.flags = s.flags ∧ t.out = s.out ∧ t.status = s.status ∧ t.cfg = s.cfg) ∧
  (∀ s : State, s.load s.sp ≠ 255 → s.pc.toNat + 2 ≤ 255 →
    ∃ t, exec (.pop (regByte spIndex)) s = .next t ∧
      t.sp.toNat = (s.load s.sp).toNat + 1 ∧ SameRegsBut [spIndex] s t ∧
      t.pc.toNat = s.pc.toNat + 2 ∧
      SameMemory s t ∧ t.flags = s.flags ∧ t.out = s.out ∧ t.status = s.status ∧ t.cfg = s.cfg) ∧
  (∀ (b : Byte) (s : State), 255 < s.pc.toNat + 1 →
    Raises (.pop b) s (.addressingError .pcRange) (BitVec.ofNat 8 (s.pc.toNat + 1))) ∧
  (∀ (b : Byte) (s : State), s.pc.toNat + 1 ≤ 255 → 7 < b.toNat →
    Raises (.pop b) s (.addressingError .regIndex) b) ∧
  (∀ (r : RegIdx) (s : State), s.pc.toNat + 1 ≤ 255 → r ≠ spIndex → s.sp = 255 →
    Raises (.pop (regByte r)) s (.addressingError .spRange) 0) ∧
  (∀ s : State, s.pc.toNat + 1 ≤ 255 → s.load s.sp = 255 →
    Raises (.pop (regByte spIndex)) s (.addressingError .spRange) 0) ∧
  (∀ (r : RegIdx) (s : State), s.pc.toNat + 1 ≤ 255 →
    (if r = spIndex then s.load s.sp ≠ 255 else s.sp ≠ 255) → 255 < s.pc.toNat + 2 →
    Raises (.pop (regByte r)) s (.addressingError .pcRange) (BitVec.ofNat 8 (s.pc.toNat + 2)))

/-- 44_control.md R81. -/
def Obligations.JmpGoesToRegister : Prop :=
  (∀ (r : RegIdx) (s : State), s.pc.toNat + 1 ≤ 255 →
    ∃ t, exec (.jmp (regByte r)) s = .next t ∧
      t.pc = s.reg r ∧
      SameRegs s t ∧ SameMemory s t ∧ t.flags = s.flags ∧ t.out = s.out ∧ t.status = s.status ∧ t.cfg = s.cfg) ∧
  (∀ (b : Byte) (s : State), 255 < s.pc.toNat + 1 →
    Raises (.jmp b) s (.addressingError .pcRange) (BitVec.ofNat 8 (s.pc.toNat + 1))) ∧
  (∀ (b : Byte) (s : State), s.pc.toNat + 1 ≤ 255 → 7 < b.toNat →
    Raises (.jmp b) s (.addressingError .regIndex) b)

/-- 44_control.md R82. -/
def Obligations.JeqJumpsIffEqualFlag : Prop :=
  (∀ (r : RegIdx) (s : State), s.pc.toNat + 1 ≤ 255 → (s.flags.e = true ∨ s.pc.toNat + 2 ≤ 255) →
    ∃ t, exec (.jeq (regByte r)) s = .next t ∧
      (s.flags.e = true → t.pc = s.reg r) ∧ (s.flags.e = false → t.pc.toNat = s.pc.toNat + 2) ∧
      SameRegs s t ∧ SameMemory s t ∧ t.flags = s.flags ∧ t.out = s.out ∧ t.status = s.status ∧ t.cfg = s.cfg) ∧
  (∀ (b : Byte) (s : State), 255 < s.pc.toNat + 1 →
    Raises (.jeq b) s (.addressingError .pcRange) (BitVec.ofNat 8 (s.pc.toNat + 1))) ∧
  (∀ (b : Byte) (s : State), s.pc.toNat + 1 ≤ 255 → 7 < b.toNat →
    Raises (.jeq b) s (.addressingError .regIndex) b) ∧
  (∀ (r : RegIdx) (s : State), s.pc.toNat + 1 ≤ 255 → s.flags.e = false → 255 < s.pc.toNat + 2 →
    Raises (.jeq (regByte r)) s (.addressingError .pcRange) (BitVec.ofNat 8 (s.pc.toNat + 2)))

/-- 44_control.md R83. -/
def Obligations.JneJumpsIffEqualFlagClear : Prop :=
  (∀ (r : RegIdx) (s : State), s.pc.toNat + 1 ≤ 255 → (s.flags.e = false ∨ s.pc.toNat + 2 ≤ 255) →
    ∃ t, exec (.jne (regByte r)) s = .next t ∧
      (s.flags.e = false → t.pc = s.reg r) ∧ (s.flags.e = true → t.pc.toNat = s.pc.toNat + 2) ∧
      SameRegs s t ∧ SameMemory s t ∧ t.flags = s.flags ∧ t.out = s.out ∧ t.status = s.status ∧ t.cfg = s.cfg) ∧
  (∀ (b : Byte) (s : State), 255 < s.pc.toNat + 1 →
    Raises (.jne b) s (.addressingError .pcRange) (BitVec.ofNat 8 (s.pc.toNat + 1))) ∧
  (∀ (b : Byte) (s : State), s.pc.toNat + 1 ≤ 255 → 7 < b.toNat →
    Raises (.jne b) s (.addressingError .regIndex) b) ∧
  (∀ (r : RegIdx) (s : State), s.pc.toNat + 1 ≤ 255 → s.flags.e = true → 255 < s.pc.toNat + 2 →
    Raises (.jne (regByte r)) s (.addressingError .pcRange) (BitVec.ofNat 8 (s.pc.toNat + 2)))

/-- 44_control.md R84. That CALL is implemented is the spec's decision D2 (log entry 17), its return-address fault D16
(log entry 12), and that `CALL R7` reads the target after the push D15 (log entry 15). -/
def Obligations.CallPushesReturnAddress : Prop :=
  (∀ (r : RegIdx) (s : State), 1 ≤ s.sp.toNat → s.pc.toNat + 2 ≤ 255 →
    ∃ t, exec (.call (regByte r)) s = .next t ∧
      t.sp = narrow (s.sp.toNat - 1) ∧
      (t.load (narrow (s.sp.toNat - 1))).toNat = s.pc.toNat + 2 ∧
      t.pc = (if r = spIndex then narrow (s.sp.toNat - 1) else s.reg r) ∧
      SameRegsBut [spIndex] s t ∧ SameMemoryBut (narrow (s.sp.toNat - 1)) s t ∧
      t.flags = s.flags ∧ t.out = s.out ∧ t.status = s.status ∧ t.cfg = s.cfg) ∧
  (∀ (b : Byte) (s : State), 255 < s.pc.toNat + 1 →
    Raises (.call b) s (.addressingError .pcRange) (BitVec.ofNat 8 (s.pc.toNat + 1))) ∧
  (∀ (b : Byte) (s : State), s.pc.toNat + 1 ≤ 255 → 7 < b.toNat →
    Raises (.call b) s (.addressingError .regIndex) b) ∧
  (∀ (r : RegIdx) (s : State), s.pc.toNat + 1 ≤ 255 → s.sp = 0 →
    Raises (.call (regByte r)) s (.addressingError .spRange) 255) ∧
  (∀ (r : RegIdx) (s : State), s.pc.toNat + 1 ≤ 255 → s.sp ≠ 0 → 255 < s.pc.toNat + 2 →
    Raises (.call (regByte r)) s (.addressingError .pcRange) 0)

/-- 44_control.md R85. That RET is implemented is the spec's decision D2 (log entry 17). -/
def Obligations.RetPopsProgramCounter : Prop :=
  (∀ s : State, s.sp ≠ 255 →
    ∃ t, exec .ret s = .next t ∧
      t.pc = s.load s.sp ∧ t.sp.toNat = s.sp.toNat + 1 ∧ SameRegsBut [spIndex] s t ∧
      SameMemory s t ∧ t.flags = s.flags ∧ t.out = s.out ∧ t.status = s.status ∧ t.cfg = s.cfg) ∧
  (∀ s : State, s.sp = 255 → Raises .ret s (.addressingError .spRange) 0)

/-! ## The step -/

/-- 40_step_loop.md R51, R56. The window is the byte at `pc` and the two bytes after it, with the fallback (decision D5)
where those lie beyond address 255. -/
def Obligations.StepRunsDecodedInstruction : Prop :=
  (∀ (s : State) (i : Instr) (rest : List Byte), s.status = .running →
    decode s.cfg (fetchWindow s) = .ok (i, rest) → step s = exec i s) ∧
  (∀ s : State, ∃ b1 b2, fetchWindow s = [s.load s.pc, b1, b2] ∧
    (s.pc.toNat + 1 ≤ 255 → b1 = s.load (narrow (s.pc.toNat + 1))) ∧
    (255 < s.pc.toNat + 1 → b1 = s.cfg.prefetchFallback) ∧
    (s.pc.toNat + 2 ≤ 255 → b2 = s.load (narrow (s.pc.toNat + 2))) ∧
    (255 < s.pc.toNat + 2 → b2 = s.cfg.prefetchFallback))

/-- An instruction whose encoding lies in memory at `pc`, under any opcode map that meets R45, is what the next step
runs (30_encoding.md R40, R45, R47; 40_step_loop.md R56). -/
def Obligations.EncodedInstructionInMemoryRuns : Prop :=
  ∀ (s : State) (i : Instr), s.status = .running → s.cfg.distinct = true → s.cfg.enables i.opcode = true →
    s.pc.toNat + (encode s.cfg i).length ≤ 256 →
    (∀ k (hk : k < (encode s.cfg i).length), s.load (narrow (s.pc.toNat + k)) = (encode s.cfg i)[k]) →
    step s = exec i s

/-- 60_exceptions.md R92: raised exactly when `M[pc]` is no enabled opcode, whatever the operand bytes are; the record's
`info` is that byte and nothing else changes, what was emitted stays emitted. -/
def Obligations.DecodeErrorExactlyWhenUnrecognised : Prop :=
  (∀ s : State, s.status = .running → (∀ o, s.cfg.enables o = true → s.cfg.byteOf o ≠ s.load s.pc) →
    step s = .next { s with status := .faulted ⟨.decodeError, s.pc, s.load s.pc⟩ }) ∧
  (∀ (s t : State) (f : FaultRecord), s.status = .running → step s = .next t → t.status = .faulted f →
    f.cause = .decodeError → ∀ o, s.cfg.enables o = true → s.cfg.byteOf o ≠ s.load s.pc)

/-- "When `Status` is `Halted` or `Faulted(f)` there is no step" (40_step_loop.md R50, decisions D13 and D23). That `step`
answers a fault of the model's own there is log entry 7. -/
def Obligations.NoStepFromTerminalStatus : Prop :=
  ∀ s : State,
    (s.status = .halted → step s = .fault .noStepHalted) ∧
    (∀ f, s.status = .faulted f → step s = .fault (.noStepFaulted f))

/-- 40_step_loop.md R50 and 60_exceptions.md R90: a running step always completes, and when it faults the state is as
before but for the record, whose `at` is the unchanged `pc`; no step raises an ALU contract error (R94). Decisions D13,
D21, D23 (log entries 14 and 19). -/
def Obligations.RunningStepYieldsRunningHaltedOrPreciseFault : Prop :=
  ∀ s : State, s.status = .running → ∃ t, step s = .next t ∧
    (t.status = .running ∨ t.status = .halted ∨
      ∃ f, t = { s with status := .faulted f } ∧ f.atPc = s.pc ∧ f.cause ≠ .aluContractError)

/-- 10_state.md R15: `Halted` is false at start, set by the HALT instruction alone, and never cleared. -/
def Obligations.HaltedSetByHaltAloneAndNeverCleared : Prop :=
  State.reset.halted = false ∧
  (∀ s t : State, step s = .next t → (t.halted = true ↔ opcodeOf s.cfg (s.load s.pc) = some .halt)) ∧
  (∀ s t : State, s.halted = true → step s ≠ .next t)

/-- The checks (2) to (5) of 40_step_loop.md R56 as one flat list, against the meanings, which nest them: the first check
that fails is the one fault raised, and where none fails the instruction has its effects and the Engine goes on, or
halts. The order is the spec's decision D14 (log entry 14). -/
def Obligations.ExecRaisesTheFirstFailedCheck : Prop :=
  ∀ (i : Instr) (s : State),
    (∀ c info, firstFault i s = some (c, info) → Raises i s c info) ∧
    (firstFault i s = none → ∃ t, exec i s = .next t ∧
      t.status = if i = .halt then .halted else s.status)

/-- 40_step_loop.md R53 with 10_state.md R16 and 30_encoding.md R41: where the operand bytes exist, an instruction with a
register operand byte above 7 faults on every execution, a jump that would not be taken too, and reports such a byte.
The class and sub-cause of the fault are the spec's decision D11 (log entry 13). -/
def Obligations.IllFormedInstructionAlwaysFaults : Prop :=
  ∀ (i : Instr) (s : State), i.wf = false → s.pc.toNat + lengthOf i.opcode ≤ 256 →
    ∃ b ∈ i.regOperands, 7 < b.toNat ∧ Raises i s (.addressingError .regIndex) b

/-! ## Whole-machine rules: who writes what -/

/-- 10_state.md R14, R22 (c): no instruction but CMP writes a flag; a CMP that completes leaves exactly one set; and so
exactly one stays set ever after. -/
def Obligations.FlagsWrittenByCmpAlone : Prop :=
  (∀ (i : Instr) (s t : State), exec i s = .next t → i.opcode ≠ .cmp → t.flags = s.flags) ∧
  (∀ (b1 b2 : Byte) (s t : State), exec (.cmp b1 b2) s = .next t → t.status = s.status →
    s.status = .running → t.flags.exactlyOne = true) ∧
  (∀ s t : State, Reaches s t → s.flags.exactlyOne = true → t.flags.exactlyOne = true)

/-- 20_memory.md R32: the only stores are PUSH's and CALL's, to the cell under the stack pointer. -/
def Obligations.MemoryWrittenByPushAndCallAlone : Prop :=
  ∀ (i : Instr) (s t : State) (a : Byte), exec i s = .next t → t.load a ≠ s.load a →
    (i.opcode = .push ∨ i.opcode = .call) ∧ a = narrow (s.sp.toNat - 1) ∧ t.sp = a

/-- The "writes" column of the table of 10_state.md R11. -/
def Obligations.RegistersWrittenAsTabled : Prop :=
  ∀ (i : Instr) (s t : State) (k : RegIdx), exec i s = .next t → t.reg k ≠ s.reg k →
    match i with
    | .ldi r _  => regByte k = r
    | .mul a _  => regByte k = a
    | .add a _  => regByte k = a
    | .pop r    => regByte k = r ∨ k = spIndex
    | .push _   => k = spIndex
    | .call _   => k = spIndex
    | .ret      => k = spIndex
    | .halt | .prn _ | .cmp _ _ | .jmp _ | .jeq _ | .jne _ => False

/-- 10_state.md R18, R22 (e): the output only grows, by one byte, by PRN alone; the byte is a register's. That it is a
byte and not text is the spec's decision D17 (log entry 19). -/
def Obligations.OutputGrowsByPrnAlone : Prop :=
  State.reset.out = [] ∧
  ∀ s t : State, step s = .next t →
    t.out = s.out ∨
    (opcodeOf s.cfg (s.load s.pc) = some .prn ∧ ∃ r : RegIdx,
      regByte r = s.load (narrow (s.pc.toNat + 1)) ∧ t.out = s.out ++ [s.reg r])

/-- The model's own field: no step writes the configuration (log entry 2). -/
def Obligations.ConfigurationNeverWritten : Prop :=
  ∀ s t : State, Reaches s t → t.cfg = s.cfg

/-! ## The invariant (10_state.md R22) -/

/-- Every loaded image starts a state that meets the invariant, the empty image's `State.reset` among them. -/
def Obligations.ResetMeetsInvariant : Prop :=
  State.reset.Inv = true ∧
  ∀ (c : Config) (image : List Byte) (s : State), State.resetWith c image = .ok s → s.Inv = true

/-- 10_state.md R22 (a), (c), and the truth of the fault record (60_exceptions.md R90 to R94), kept by every step from
every state that has them. -/
def Obligations.StepKeepsInvariant : Prop :=
  ∀ s t : State, s.Inv = true → step s = .next t → t.Inv = true

/-- 70_reset_and_hazards.md R110, R111 and 10_state.md R21. The values 0 of x[0..6], of the flags and of unloaded memory
are the spec's decisions D9, D8, D10 (log entries 4, 6, 5); the load error is D20. -/
def Obligations.LoadedImageGivesResetState : Prop :=
  (∀ (c : Config) (image : List Byte), image.length ≤ 256 →
    ∃ s, State.resetWith c image = .ok s ∧
      (∀ i (hi : i < image.length), s.load (BitVec.ofNat 8 i) = image[i]) ∧
      (∀ a : Byte, image.length ≤ a.toNat → s.load a = 0) ∧
      s.sp = 255 ∧ (∀ k : RegIdx, k ≠ spIndex → s.reg k = 0) ∧ s.pc = 0 ∧
      s.flags = ⟨false, false, false⟩ ∧ s.halted = false ∧ s.status = .running ∧ s.out = [] ∧ s.cfg = c) ∧
  (∀ (c : Config) (image : List Byte), 256 < image.length → State.resetWith c image = .error .imageTooLong) ∧
  State.resetWith configReset [] = .ok State.reset

/-! ## Encoding -/

/-- Encode, then decode: under every opcode map that meets the constraint of 30_encoding.md R45, for every enabled
instruction, every operand byte and whatever bytes follow. -/
def Obligations.DecodeOfEncodeIsTheInstruction : Prop :=
  ∀ (c : Config) (i : Instr) (rest : List Byte), c.distinct = true → c.enables i.opcode = true →
    decode c (encode c i ++ rest) = .ok (i, rest)

/-- Decode, then encode: the bytes the decoder took are the encoding of what it answered, and it takes as many as the
table says (30_encoding.md R40, R47). -/
def Obligations.EncodeOfDecodeIsTheBytes : Prop :=
  ∀ (c : Config) (bs rest : List Byte) (i : Instr), decode c bs = .ok (i, rest) →
    bs = encode c i ++ rest ∧ c.enables i.opcode = true ∧ bs.length = lengthOf i.opcode + rest.length

/-- 30_encoding.md R44: the opcode byte alone decides, compared whole; no match is "unrecognised". -/
def Obligations.DecodingByExactOpcodeMatch : Prop :=
  ∀ (c : Config) (b0 : Byte) (bs : List Byte), c.distinct = true →
    (∀ o, c.enables o = true → c.byteOf o = b0 → lengthOf o ≤ bs.length + 1 →
      ∃ i rest, decode c (b0 :: bs) = .ok (i, rest) ∧ i.opcode = o ∧ bs.length + 1 = lengthOf o + rest.length) ∧
    ((∀ o, c.enables o = true → c.byteOf o ≠ b0) → decode c (b0 :: bs) = .error (.unrecognised b0))

/-- 00_scope.md R6 and 42_alu.md R71, decision D3 (log entry 3): with `ADD_ENABLE` the opcode byte of ADD decodes to ADD;
without it nothing does, and on the specified machine the byte 0xA0 (PRESUMED, log entry 1) raises a decode error. -/
def Obligations.AddDecodableOnlyWhenEnabled : Prop :=
  (∀ (c : Config) (a b : Byte) (rest : List Byte), c.distinct = true → c.addEnable = true →
    decode c (c.opc.add :: a :: b :: rest) = .ok (.add a b, rest)) ∧
  (∀ (c : Config) (bs rest : List Byte) (i : Instr), c.addEnable = false → decode c bs = .ok (i, rest) →
    i.opcode ≠ .add) ∧
  (∀ s : State, s.status = .running → s.cfg = configDefault → s.load s.pc = 0xA0 →
    step s = .next { s with status := .faulted ⟨.decodeError, s.pc, 0xA0⟩ })

/-- Every row of 30_encoding.md R43: a word written out from its encoding, first byte in the low bits, decodes to the
instruction it stands for, and each default byte is its own mnemonic's; no other byte is recognised on the specified machine
(R46). The byte values are PRESUMED (log entry 1, decision D1). The ADD word decodes because `decodeTableWord` reads table
words with `ADD_ENABLE` on, the DESIGN CHOICE of log entry 3 (decision D3); on the specified machine 0xA0 is unrecognised. -/
def Obligations.DefaultOpcodesDecodeAsTabled : Prop :=
  decodeTableWord 8 0x01 = some .halt ∧
  decodeTableWord 24 0x080082 = some (.ldi 0 8) ∧
  decodeTableWord 16 0x0347 = some (.prn 3) ∧
  decodeTableWord 24 0x0201A2 = some (.mul 1 2) ∧
  decodeTableWord 24 0x0605A7 = some (.cmp 5 6) ∧
  decodeTableWord 16 0x0745 = some (.push 7) ∧
  decodeTableWord 16 0x0446 = some (.pop 4) ∧
  decodeTableWord 16 0x0154 = some (.jmp 1) ∧
  decodeTableWord 16 0x0655 = some (.jeq 6) ∧
  decodeTableWord 16 0x0256 = some (.jne 2) ∧
  decodeTableWord 16 0x0550 = some (.call 5) ∧
  decodeTableWord 8 0x11 = some .ret ∧
  decodeTableWord 24 0x0201A0 = some (.add 1 2) ∧
  opcodeOf configDefault 0x01 = some .halt ∧ opcodeOf configDefault 0x82 = some .ldi ∧
  opcodeOf configDefault 0x47 = some .prn ∧ opcodeOf configDefault 0xA2 = some .mul ∧
  opcodeOf configDefault 0xA7 = some .cmp ∧ opcodeOf configDefault 0x45 = some .push ∧
  opcodeOf configDefault 0x46 = some .pop ∧ opcodeOf configDefault 0x54 = some .jmp ∧
  opcodeOf configDefault 0x55 = some .jeq ∧ opcodeOf configDefault 0x56 = some .jne ∧
  opcodeOf configDefault 0x50 = some .call ∧ opcodeOf configDefault 0x11 = some .ret ∧
  opcodeOf configWithAdd 0xA0 = some .add ∧
  ∀ b : Byte, opcodeOf configDefault b = none ↔
    b ∉ [0x01, 0x11, 0x45, 0x46, 0x47, 0x50, 0x54, 0x55, 0x56, 0x82, 0xA2, 0xA7]

/-! ## What an instruction cannot depend on -/

/-- 30_encoding.md R45: "Every rule of the instruction files is written in terms of mnemonics and is independent of the
byte values": executing an instruction neither reads the configuration nor changes it (log entry 2). -/
def Obligations.ExecIndependentOfConfiguration : Prop :=
  ∀ (i : Instr) (s : State) (c : Config), ∃ t, exec i s = .next t ∧
    exec i { s with cfg := c } = .next { t with cfg := c }

/-- 40_step_loop.md R51, decision D5: "The fallback value is never used": replacing it changes no step. -/
def Obligations.PrefetchFallbackUnobservable : Prop :=
  ∀ (s t : State) (v : Byte), step s = .next t →
    step { s with cfg := { s.cfg with prefetchFallback := v } } =
      .next { t with cfg := { t.cfg with prefetchFallback := v } }

/-- 10_state.md R14, 44_control.md R87, decision D26: L and G are state no instruction reads: replacing them changes
nothing of a step's result but L and G. -/
def Obligations.FlagsLessAndGreaterNeverRead : Prop :=
  ∀ (s t : State) (l g : Bool), step s = .next t →
    ∃ u, step { s with flags := ⟨s.flags.e, l, g⟩ } = .next u ∧ u.flags.e = t.flags.e ∧
      SameRegs t u ∧ SameMemory t u ∧ u.pc = t.pc ∧ u.status = t.status ∧ u.out = t.out ∧ u.cfg = t.cfg

/-- 10_state.md R18: `Out` is "never read by any instruction": under another history a step emits the same bytes and does
the same. -/
def Obligations.OutputNeverRead : Prop :=
  ∀ (s t : State) (before : List Byte), step s = .next t →
    ∃ emitted, t.out = s.out ++ emitted ∧
      step { s with out := before } = .next { t with out := before ++ emitted }

/-! ## Sequences -/

/-- 43_stack.md R77, the source's property: "PUSH then POP (to the same or different register) round-trips the exact value
and restores SP to its pre-PUSH value", for operands other than register 7 and a pointer of at least 1. -/
def Obligations.PushThenPopRoundTrips : Prop :=
  ∀ (a b : RegIdx) (s : State), a ≠ spIndex → b ≠ spIndex → 1 ≤ s.sp.toNat → s.pc.toNat + 4 ≤ 255 →
    ∃ t u, exec (.push (regByte a)) s = .next t ∧ exec (.pop (regByte b)) t = .next u ∧
      u.reg b = s.reg a ∧ u.sp = s.sp ∧ SameRegsBut [b] s u ∧
      u.load (narrow (s.sp.toNat - 1)) = s.reg a ∧ SameMemoryBut (narrow (s.sp.toNat - 1)) s u

/-- 44_control.md R86: a RET that finds the stack pointer and the cell under it as CALL left them goes to the instruction
after the CALL and restores the pointer. CALL and RET are the spec's decision D2 (log entry 17). -/
def Obligations.CallThenRetReturns : Prop :=
  ∀ (r : RegIdx) (s : State), 1 ≤ s.sp.toNat → s.pc.toNat + 2 ≤ 255 →
    ∃ t, exec (.call (regByte r)) s = .next t ∧
      ∀ u : State, u.sp = t.sp → u.load u.sp = t.load t.sp →
        ∃ v, exec .ret u = .next v ∧ v.pc.toNat = s.pc.toNat + 2 ∧ v.sp = s.sp

/-- 20_memory.md R36: a byte pushed to the address of the next instruction is the opcode the very next step decodes. -/
def Obligations.PushedByteIsFetchedNext : Prop :=
  ∀ (r : RegIdx) (s : State), s.status = .running → s.pc.toNat + 2 ≤ 255 → s.sp.toNat = s.pc.toNat + 3 →
    r ≠ spIndex →
    ∃ t, exec (.push (regByte r)) s = .next t ∧ t.status = .running ∧
      (opcodeOf s.cfg (s.reg r) = none →
        step t = .next { t with status := .faulted ⟨.decodeError, t.pc, s.reg r⟩ }) ∧
      (∀ o, opcodeOf s.cfg (s.reg r) = some o → ∃ j : Instr, j.opcode = o ∧ step t = exec j t)

/-- 40_step_loop.md R58, R59: from one start there is at most one end of the run. -/
def Obligations.EndOfRunIsUnique : Prop :=
  ∀ s t u : State, Reaches s t → Reaches s u → t.status ≠ .running → u.status ≠ .running → t = u

/-- Every state a loaded program reaches meets the invariant of 10_state.md R22, keeps the configuration it was started
with, and, if it is a fault, left `pc` at the faulting instruction (60_exceptions.md R90). -/
def Obligations.ReachableStatesMeetInvariant : Prop :=
  ∀ (c : Config) (image : List Byte) (s t : State), State.resetWith c image = .ok s → Reaches s t →
    t.Inv = true ∧ t.cfg = c ∧ ∀ f, t.status = .faulted f → f.atPc = t.pc

/-! ## Program text -/

/-- 30_encoding.md R48. `tail` is what follows the white space after the body: nothing, or `#` and a comment. A line of
one to eight binary digits gives the byte of their value, the first digit the most significant; the byte whose eight digits
a line is written with is the byte it gives; a line with no digit is blank or a comment and gives none; a line with any
other character before its comment is a load error. Which characters are white space is the model's reading (log entry 11). -/
def Obligations.ProgramLineGivesItsByte : Prop :=
  ∀ pre post tail : List Char, (∀ c ∈ pre, c.isWhitespace = true) → (∀ c ∈ post, c.isWhitespace = true) →
    (tail = [] ∨ ∃ comment, tail = '#' :: comment) →
    (∀ digits : List Bool, digits ≠ [] → digits.length ≤ 8 →
      parseLine (pre ++ digits.map (fun d => if d then '1' else '0') ++ post ++ tail) =
        .ok (some (narrow (digits.foldl (fun n d => 2 * n + d.toNat) 0)))) ∧
    (∀ b : Byte,
      parseLine (pre ++ [7, 6, 5, 4, 3, 2, 1, 0].map (fun k => if b.getLsbD k then '1' else '0') ++ post ++ tail) =
        .ok (some b)) ∧
    parseLine (pre ++ tail) = .ok none ∧
    (∀ (before : List Char) (c : Char), '#' ∉ before → c ∈ before → c.isWhitespace = false → c ≠ '0' → c ≠ '1' →
      parseLine (before ++ tail) = .error .malformedLiteral)
end

