-- ==== Sys2Proof/Laws/Decode.lean ====
section
/-! SUPPORT. The opcode map and the pieces of the decoder (30_encoding.md R43 to R47). -/

namespace Sys2Proof

theorem mem_opcodes (o : Opcode) : o ∈ opcodes := by cases o <;> decide

/-- A recognised byte is the opcode byte of an enabled mnemonic (30_encoding.md R44). -/
theorem opcodeOf_some {c : Config} {b : Byte} {o : Opcode} (h : opcodeOf c b = some o) :
    c.enables o = true ∧ c.byteOf o = b := by
  have := List.find?_some h
  simpa using this

/-- A byte is unrecognised when no enabled mnemonic has it (30_encoding.md R46). -/
theorem opcodeOf_none {c : Config} {b : Byte} : opcodeOf c b = none ↔ ∀ o, c.enables o = true → c.byteOf o ≠ b := by
  rw [opcodeOf, List.find?_eq_none]
  constructor
  · intro h o ho e
    exact h o (mem_opcodes o) (by simp [ho, e])
  · intro h o _ ho
    simp only [Bool.and_eq_true, beq_iff_eq] at ho
    exact h o ho.1 ho.2

/-- The length of every row is 1, 2 or 3 (30_encoding.md R40). -/
theorem lengthOf_bounds (o : Opcode) : 1 ≤ lengthOf o ∧ lengthOf o ≤ 3 := by cases o <;> decide

@[simp] theorem lengthOf_halt : lengthOf .halt = 1 := rfl
@[simp] theorem lengthOf_ldi : lengthOf .ldi = 3 := rfl
@[simp] theorem lengthOf_prn : lengthOf .prn = 2 := rfl
@[simp] theorem lengthOf_mul : lengthOf .mul = 3 := rfl
@[simp] theorem lengthOf_cmp : lengthOf .cmp = 3 := rfl
@[simp] theorem lengthOf_push : lengthOf .push = 2 := rfl
@[simp] theorem lengthOf_pop : lengthOf .pop = 2 := rfl
@[simp] theorem lengthOf_jmp : lengthOf .jmp = 2 := rfl
@[simp] theorem lengthOf_jeq : lengthOf .jeq = 2 := rfl
@[simp] theorem lengthOf_jne : lengthOf .jne = 2 := rfl
@[simp] theorem lengthOf_call : lengthOf .call = 2 := rfl
@[simp] theorem lengthOf_ret : lengthOf .ret = 1 := rfl
@[simp] theorem lengthOf_add : lengthOf .add = 3 := rfl

/-- The constraint of 30_encoding.md R45 in words. -/
theorem distinct_iff (c : Config) :
    c.distinct = true ↔ ∀ o p, c.enables o = true → c.enables p = true → c.byteOf o = c.byteOf p → o = p := by
  simp only [Config.distinct, List.all_eq_true, Bool.or_eq_true, Bool.not_eq_true', Bool.and_eq_false_iff,
    beq_iff_eq, beq_eq_false_iff_ne]
  constructor
  · intro h o p ho hp hb
    rcases h o (mem_opcodes o) p (mem_opcodes p) with ((h | h) | h) | h
    · simp [ho] at h
    · simp [hp] at h
    · exact absurd hb h
    · exact h
  · intro h o _ p _
    cases ho : c.enables o
    · simp
    · cases hp : c.enables p
      · simp
      · by_cases hb : c.byteOf o = c.byteOf p
        · exact .inr (h o p ho hp hb)
        · exact .inl (.inr hb)

/-- Under that constraint the opcode byte of an enabled mnemonic is recognised as that mnemonic. -/
theorem opcodeOf_byteOf {c : Config} (hd : c.distinct = true) {o : Opcode} (ho : c.enables o = true) :
    opcodeOf c (c.byteOf o) = some o := by
  match h : opcodeOf c (c.byteOf o) with
  | none => exact absurd rfl (opcodeOf_none.mp h o ho)
  | some p =>
    obtain ⟨hp, hb⟩ := opcodeOf_some h
    rw [(distinct_iff c).mp hd p o hp ho hb]

theorem decode_cons (c : Config) (b0 : Byte) (rest : List Byte) :
    decode c (b0 :: rest) =
      match opcodeOf c b0 with
      | none   => .error (.unrecognised b0)
      | some o => decodeOperands o rest := rfl

/-- The operand bytes an encoder wrote are the ones the decoder takes. -/
theorem decodeOperands_operandBytes (i : Instr) (rest : List Byte) :
    decodeOperands i.opcode (operandBytes i ++ rest) = .ok (i, rest) := by
  cases i <;> rfl

/-- With two operand bytes present no instruction lacks one: what the three-byte fetch relies on (40_step_loop.md R51). -/
theorem decodeOperands_two (o : Opcode) (b1 b2 : Byte) :
    ∃ i rest, decodeOperands o [b1, b2] = .ok (i, rest) ∧ i.opcode = o := by
  cases o <;> exact ⟨_, _, rfl, rfl⟩

end Sys2Proof
end

