-- ==== Sys2Proof/Laws/State.lean ====
section
/-! SUPPORT. One lemma per field per update of the state, so that no proof unfolds a record update. -/

namespace Sys2Proof.Machine.State

variable (s : State)

/-! ## `setReg` -/

@[simp] theorem setReg_pc (k : RegIdx) (v : Byte) : (s.setReg k v).pc = s.pc := rfl
@[simp] theorem setReg_flags (k : RegIdx) (v : Byte) : (s.setReg k v).flags = s.flags := rfl
@[simp] theorem setReg_mem (k : RegIdx) (v : Byte) : (s.setReg k v).mem = s.mem := rfl
@[simp] theorem setReg_status (k : RegIdx) (v : Byte) : (s.setReg k v).status = s.status := rfl
@[simp] theorem setReg_out (k : RegIdx) (v : Byte) : (s.setReg k v).out = s.out := rfl
@[simp] theorem setReg_cfg (k : RegIdx) (v : Byte) : (s.setReg k v).cfg = s.cfg := rfl

/-- A register reads back the byte last written to it, every other register as before (10_state.md R11). -/
@[simp] theorem setReg_reg (k : RegIdx) (v : Byte) (j : RegIdx) :
    (s.setReg k v).reg j = if j = k then v else s.reg j := by
  simp only [setReg, reg, Fin.getElem_fin, Vector.getElem_set, Fin.ext_iff, eq_comm]

theorem setReg_reg_same (k : RegIdx) (v : Byte) : (s.setReg k v).reg k = v := by simp

theorem setReg_reg_other {k j : RegIdx} (v : Byte) (h : j ≠ k) : (s.setReg k v).reg j = s.reg j := by simp [h]

@[simp] theorem setReg_load (k : RegIdx) (v : Byte) (x : Byte) : (s.setReg k v).load x = s.load x := rfl

/-! ## `setPc` -/

@[simp] theorem setPc_regs (t : Byte) : (s.setPc t).regs = s.regs := rfl
@[simp] theorem setPc_pc (t : Byte) : (s.setPc t).pc = t := rfl
@[simp] theorem setPc_flags (t : Byte) : (s.setPc t).flags = s.flags := rfl
@[simp] theorem setPc_mem (t : Byte) : (s.setPc t).mem = s.mem := rfl
@[simp] theorem setPc_status (t : Byte) : (s.setPc t).status = s.status := rfl
@[simp] theorem setPc_out (t : Byte) : (s.setPc t).out = s.out := rfl
@[simp] theorem setPc_cfg (t : Byte) : (s.setPc t).cfg = s.cfg := rfl
@[simp] theorem setPc_reg (t : Byte) (j : RegIdx) : (s.setPc t).reg j = s.reg j := rfl
@[simp] theorem setPc_load (t : Byte) (x : Byte) : (s.setPc t).load x = s.load x := rfl

/-! ## `setFlags` -/

@[simp] theorem setFlags_regs (f : Flags) : (s.setFlags f).regs = s.regs := rfl
@[simp] theorem setFlags_pc (f : Flags) : (s.setFlags f).pc = s.pc := rfl
@[simp] theorem setFlags_flags (f : Flags) : (s.setFlags f).flags = f := rfl
@[simp] theorem setFlags_mem (f : Flags) : (s.setFlags f).mem = s.mem := rfl
@[simp] theorem setFlags_status (f : Flags) : (s.setFlags f).status = s.status := rfl
@[simp] theorem setFlags_out (f : Flags) : (s.setFlags f).out = s.out := rfl
@[simp] theorem setFlags_cfg (f : Flags) : (s.setFlags f).cfg = s.cfg := rfl
@[simp] theorem setFlags_reg (f : Flags) (j : RegIdx) : (s.setFlags f).reg j = s.reg j := rfl
@[simp] theorem setFlags_load (f : Flags) (x : Byte) : (s.setFlags f).load x = s.load x := rfl

/-! ## `store` -/

@[simp] theorem store_regs (a v : Byte) : (s.store a v).regs = s.regs := rfl
@[simp] theorem store_pc (a v : Byte) : (s.store a v).pc = s.pc := rfl
@[simp] theorem store_flags (a v : Byte) : (s.store a v).flags = s.flags := rfl
@[simp] theorem store_mem (a v : Byte) : (s.store a v).mem = s.mem.write a v := rfl
@[simp] theorem store_status (a v : Byte) : (s.store a v).status = s.status := rfl
@[simp] theorem store_out (a v : Byte) : (s.store a v).out = s.out := rfl
@[simp] theorem store_cfg (a v : Byte) : (s.store a v).cfg = s.cfg := rfl
@[simp] theorem store_reg (a v : Byte) (j : RegIdx) : (s.store a v).reg j = s.reg j := rfl

/-! ## `emit` -/

@[simp] theorem emit_regs (v : Byte) : (s.emit v).regs = s.regs := rfl
@[simp] theorem emit_pc (v : Byte) : (s.emit v).pc = s.pc := rfl
@[simp] theorem emit_flags (v : Byte) : (s.emit v).flags = s.flags := rfl
@[simp] theorem emit_mem (v : Byte) : (s.emit v).mem = s.mem := rfl
@[simp] theorem emit_status (v : Byte) : (s.emit v).status = s.status := rfl
@[simp] theorem emit_out (v : Byte) : (s.emit v).out = s.out ++ [v] := rfl
@[simp] theorem emit_cfg (v : Byte) : (s.emit v).cfg = s.cfg := rfl
@[simp] theorem emit_reg (v : Byte) (j : RegIdx) : (s.emit v).reg j = s.reg j := rfl
@[simp] theorem emit_load (v : Byte) (x : Byte) : (s.emit v).load x = s.load x := rfl

/-! ## `halt` -/

@[simp] theorem halt_regs : (s.halt).regs = s.regs := rfl
@[simp] theorem halt_pc : (s.halt).pc = s.pc := rfl
@[simp] theorem halt_flags : (s.halt).flags = s.flags := rfl
@[simp] theorem halt_mem : (s.halt).mem = s.mem := rfl
@[simp] theorem halt_status : (s.halt).status = .halted := rfl
@[simp] theorem halt_out : (s.halt).out = s.out := rfl
@[simp] theorem halt_cfg : (s.halt).cfg = s.cfg := rfl
@[simp] theorem halt_reg (j : RegIdx) : (s.halt).reg j = s.reg j := rfl
@[simp] theorem halt_load (x : Byte) : (s.halt).load x = s.load x := rfl

/-! ## `raised` -/

@[simp] theorem raised_regs (c : FaultCause) (info : Byte) : (s.raised c info).regs = s.regs := rfl
@[simp] theorem raised_pc (c : FaultCause) (info : Byte) : (s.raised c info).pc = s.pc := rfl
@[simp] theorem raised_flags (c : FaultCause) (info : Byte) : (s.raised c info).flags = s.flags := rfl
@[simp] theorem raised_mem (c : FaultCause) (info : Byte) : (s.raised c info).mem = s.mem := rfl
@[simp] theorem raised_status (c : FaultCause) (info : Byte) : (s.raised c info).status = .faulted ⟨c, s.pc, info⟩ := rfl
@[simp] theorem raised_out (c : FaultCause) (info : Byte) : (s.raised c info).out = s.out := rfl
@[simp] theorem raised_cfg (c : FaultCause) (info : Byte) : (s.raised c info).cfg = s.cfg := rfl
@[simp] theorem raised_reg (c : FaultCause) (info : Byte) (j : RegIdx) : (s.raised c info).reg j = s.reg j := rfl
@[simp] theorem raised_load (c : FaultCause) (info : Byte) (x : Byte) : (s.raised c info).load x = s.load x := rfl

/-! ## The stack pointer is register 7 (10_state.md R12) -/

@[simp] theorem sp_eq : s.sp = s.reg spIndex := rfl

@[simp] theorem setSp_eq (v : Byte) : s.setSp v = s.setReg spIndex v := rfl

/-- Two states are equal when every register and every other field is. -/
theorem ext_fields {s t : State} (hr : ∀ k, s.reg k = t.reg k) (hp : s.pc = t.pc) (hf : s.flags = t.flags)
    (hm : s.mem = t.mem) (hs : s.status = t.status) (ho : s.out = t.out) (hc : s.cfg = t.cfg) : s = t := by
  have hregs : s.regs = t.regs := by
    apply Vector.ext
    intro i hi
    exact hr ⟨i, hi⟩
  obtain ⟨_, _, _, _, _, _, _⟩ := s
  obtain ⟨_, _, _, _, _, _, _⟩ := t
  simp_all

end Sys2Proof.Machine.State
end

