-- ==== Sys2Proof/Laws/Memory.lean ====
section
/-! SUPPORT. The laws of memory: read after write, the frame of a write, the canonical form (20_memory.md R25 to R27). -/

namespace Sys2Proof.Machine.Memory

/-! ## Reading -/

theorem read_nil (a : Byte) : read [] a = memFill := rfl

theorem read_cons (b : Nat) (w : Byte) (m : Memory) (a : Byte) :
    read ((b, w) :: m) a = if b = a.toNat then w else read m a := rfl

/-- An address with no entry reads as the fill value. -/
theorem read_of_absent (m : Memory) (a : Byte) (h : ∀ c ∈ m, c.1 ≠ a.toNat) : read m a = memFill := by
  induction m with
  | nil => rfl
  | cons c m ih =>
    obtain ⟨b, w⟩ := c
    have hb : b ≠ a.toNat := h (b, w) (by simp)
    rw [read_cons, if_neg hb]
    exact ih fun c hc => h c (by simp [hc])

/-! ## Removing and inserting an entry -/

theorem erase_cons (c : Host.Cell) (m : Memory) (a : Nat) :
    erase (c :: m) a = if c.1 = a then erase m a else c :: erase m a := by
  by_cases h : c.1 = a <;> simp [erase, h]

theorem mem_erase {m : Memory} {a : Nat} {c : Host.Cell} : c ∈ erase m a ↔ c ∈ m ∧ c.1 ≠ a := by
  simp [erase]

theorem read_erase_same (m : Memory) (a : Byte) : read (erase m a.toNat) a = memFill :=
  read_of_absent _ _ fun _ hc => (mem_erase.mp hc).2

theorem read_erase_other (m : Memory) {a x : Byte} (h : x ≠ a) : read (erase m a.toNat) x = read m x := by
  induction m with
  | nil => rfl
  | cons c m ih =>
    obtain ⟨b, w⟩ := c
    have hn : x.toNat ≠ a.toNat := fun e => h (BitVec.eq_of_toNat_eq e)
    rw [erase_cons]
    by_cases hb : b = a.toNat
    · rw [if_pos hb, ih, read_cons, if_neg (by omega)]
    · rw [if_neg hb, read_cons, read_cons, ih]

theorem read_insert (m : Memory) (a v x : Byte) (h : ∀ c ∈ m, c.1 ≠ a.toNat) :
    read (insert m a.toNat v) x = if x = a then v else read m x := by
  induction m with
  | nil =>
    rw [insert, read_cons]
    by_cases hx : x = a
    · simp [hx]
    · rw [if_neg hx, if_neg fun e => hx (BitVec.eq_of_toNat_eq e).symm]
  | cons c m ih =>
    obtain ⟨b, w⟩ := c
    have hb : b ≠ a.toNat := h (b, w) (by simp)
    rw [insert]
    split
    · rw [read_cons]
      by_cases hx : x = a
      · simp [hx]
      · rw [if_neg hx, if_neg fun e => hx (BitVec.eq_of_toNat_eq e).symm]
    · rw [read_cons, read_cons, ih fun c hc => h c (by simp [hc])]
      by_cases hx : x = a
      · simp [hx, hb]
      · simp [hx]

theorem mem_insert {m : Memory} {a : Nat} {v : Byte} {c : Host.Cell} :
    c ∈ insert m a v ↔ c = (a, v) ∨ c ∈ m := by
  induction m with
  | nil => simp [insert]
  | cons d m ih =>
    obtain ⟨b, w⟩ := d
    rw [insert]
    split
    · simp
    · simp [ih, or_left_comm]

/-! ## Writing -/

/-- The one law of a write: the cell reads as written, every other cell as before, whatever list the memory is. -/
theorem read_write (m : Memory) (a v x : Byte) : read (write m a v) x = if x = a then v else read m x := by
  unfold write
  split
  · by_cases hx : x = a
    · subst hx; simp [read_erase_same, *]
    · simp [hx, read_erase_other m hx]
  · rw [read_insert _ _ _ _ fun c hc => (mem_erase.mp hc).2]
    by_cases hx : x = a
    · simp [hx]
    · simp [hx, read_erase_other m hx]

/-! ## The canonical form -/

/-- Rising addresses, as a statement about all pairs of entries. -/
theorem rising_iff (m : Memory) : m.rising = true ↔ m.Pairwise fun c d => c.1 < d.1 := by
  induction m with
  | nil => simp [rising]
  | cons c m ih =>
    cases m with
    | nil => simp [rising]
    | cons d m =>
      rw [rising, Bool.and_eq_true, ih, decide_eq_true_eq, List.pairwise_cons (a := c)]
      constructor
      · rintro ⟨hcd, hp⟩
        refine ⟨fun e he => ?_, hp⟩
        rcases List.mem_cons.mp he with rfl | he
        · exact hcd
        · exact hcd.trans ((List.pairwise_cons.mp hp).1 e he)
      · rintro ⟨hall, hp⟩
        exact ⟨hall d (by simp), hp⟩

/-- The canonical form in words: rising addresses, each below 256, no entry that holds the fill value. -/
theorem wf_iff (m : Memory) :
    m.wf = true ↔ (m.Pairwise fun c d => c.1 < d.1) ∧ ∀ c ∈ m, c.1 < memSize ∧ c.2 ≠ memFill := by
  simp [wf, rising_iff, List.all_eq_true, bne_iff_ne]

theorem pairwise_erase {m : Memory} (a : Nat) (h : m.Pairwise fun c d => c.1 < d.1) :
    (erase m a).Pairwise fun c d => c.1 < d.1 := h.filter _

theorem pairwise_insert {m : Memory} {a : Nat} (v : Byte) (h : m.Pairwise fun c d => c.1 < d.1)
    (ha : ∀ c ∈ m, c.1 ≠ a) : (insert m a v).Pairwise fun c d => c.1 < d.1 := by
  induction m with
  | nil => simp [insert]
  | cons d m ih =>
    obtain ⟨b, w⟩ := d
    have hba : b ≠ a := ha (b, w) (by simp)
    obtain ⟨hd, hm⟩ := List.pairwise_cons.mp h
    rw [insert]
    split
    · rename_i hab
      refine List.pairwise_cons.mpr ⟨fun c hc => ?_, h⟩
      rcases List.mem_cons.mp hc with rfl | hc
      · exact hab
      · exact hab.trans (hd c hc)
    · refine List.pairwise_cons.mpr ⟨fun c hc => ?_, ih hm fun c hc => ha c (by simp [hc])⟩
      rcases mem_insert.mp hc with rfl | hc
      · change b < a
        omega
      · exact hd c hc

/-- A write keeps the canonical form. -/
theorem wf_write {m : Memory} (h : m.wf = true) (a v : Byte) : (write m a v).wf = true := by
  rw [wf_iff] at *
  obtain ⟨hp, hall⟩ := h
  unfold write
  split
  · exact ⟨pairwise_erase _ hp, fun c hc => hall c (mem_erase.mp hc).1⟩
  · refine ⟨pairwise_insert v (pairwise_erase _ hp) fun c hc => (mem_erase.mp hc).2, fun c hc => ?_⟩
    rcases mem_insert.mp hc with rfl | hc
    · exact ⟨a.isLt, by assumption⟩
    · exact hall c (mem_erase.mp hc).1

theorem wf_nil : wf [] = true := rfl

/-- The reset memory has the canonical form. -/
theorem wf_reset : State.reset.mem.wf = true := rfl

/-- In a canonical memory an entry is what its address reads as. -/
theorem read_of_mem {m : Memory} (h : m.Pairwise fun c d => c.1 < d.1) {c : Host.Cell} (hc : c ∈ m) {a : Byte}
    (ha : c.1 = a.toNat) : read m a = c.2 := by
  induction m with
  | nil => simp at hc
  | cons d m ih =>
    obtain ⟨b, w⟩ := d
    obtain ⟨hd, hm⟩ := List.pairwise_cons.mp h
    rw [read_cons]
    rcases List.mem_cons.mp hc with rfl | hc
    · exact if_pos ha
    · have : b < c.1 := hd c hc
      rw [if_neg (by omega)]
      exact ih hm hc

end Sys2Proof.Machine.Memory

namespace Sys2Proof.Machine.State

/-- A load after a store (20_memory.md R26, R27). -/
@[simp] theorem store_load (s : State) (a v x : Byte) : (s.store a v).load x = if x = a then v else s.load x :=
  Memory.read_write s.mem a v x

end Sys2Proof.Machine.State
end

