-- ==== Sys2Proof/Laws/Ops.lean ====
section
/-! SUPPORT. For each shared operation, everything it can do, once. -/

namespace Sys2Proof.Machine

/-! ## Narrowing -/

@[simp] theorem narrow_toNat (n : Nat) : (narrow n).toNat = n % 256 := by simp [narrow]

theorem narrow_toNat_of_le {n : Nat} (h : n ≤ 255) : (narrow n).toNat = n := by
  rw [narrow_toNat]; omega

@[simp] theorem narrow_of_toNat (b : Byte) : narrow b.toNat = b := by simp [narrow]

/-! ## Register operands -/

theorem regByte_toNat (r : RegIdx) : (regByte r).toNat = r.val := by
  simp only [regByte, BitVec.toNat_ofNat]; omega

/-- Every operand byte up to 7 is a register's. -/
theorem eq_regByte {b : Byte} (h : b.toNat < 8) : b = regByte ⟨b.toNat, h⟩ := by
  simp [regByte]

theorem regByte_inj {r q : RegIdx} (h : regByte r = regByte q) : r = q := by
  have := congrArg BitVec.toNat h
  rw [regByte_toNat, regByte_toNat] at this
  exact Fin.ext this

@[simp] theorem withReg_regByte (r : RegIdx) (s : State) (k : RegIdx → Result) : withReg (regByte r) s k = k r := by
  have h : (regByte r).toNat < 8 := by rw [regByte_toNat]; exact r.isLt
  have e : (⟨(regByte r).toNat, h⟩ : RegIdx) = r := Fin.ext (regByte_toNat r)
  rw [withReg, dif_pos h, e]

theorem withReg_of_gt {b : Byte} (h : 7 < b.toNat) (s : State) (k : RegIdx → Result) :
    withReg b s k = raise (.addressingError .regIndex) b s := by
  rw [withReg, dif_neg (by omega)]

theorem withReg_cases (b : Byte) (s : State) (k : RegIdx → Result) :
    (∃ r, b = regByte r ∧ withReg b s k = k r) ∨
      (7 < b.toNat ∧ withReg b s k = raise (.addressingError .regIndex) b s) := by
  by_cases h : b.toNat < 8
  · exact .inl ⟨⟨b.toNat, h⟩, eq_regByte h, by rw [withReg, dif_pos h]⟩
  · exact .inr ⟨by omega, withReg_of_gt (by omega) s k⟩

/-! ## The checks on `pc` and `SP` -/

theorem needBytes_of_le {o : Opcode} {s : State} (h : s.pc.toNat + lengthOf o ≤ 256) (k : Result) :
    needBytes o s k = k := by
  rw [needBytes, if_pos (by omega)]

theorem needBytes_of_gt {o : Opcode} {s : State} (h : 255 < s.pc.toNat + lengthOf o - 1) (k : Result) :
    needBytes o s k = raise (.addressingError .pcRange) (narrow (s.pc.toNat + lengthOf o - 1)) s := by
  rw [needBytes, if_neg (by omega)]

theorem withSuccessor_of_le {o : Opcode} {s : State} (h : s.pc.toNat + lengthOf o ≤ 255) (k : Byte → Result) :
    withSuccessor o s k = k (narrow (s.pc.toNat + lengthOf o)) := by
  rw [withSuccessor, if_pos h]

theorem withSuccessor_of_gt {o : Opcode} {s : State} (h : 255 < s.pc.toNat + lengthOf o) (k : Byte → Result) :
    withSuccessor o s k = raise (.addressingError .pcRange) (narrow (s.pc.toNat + lengthOf o)) s := by
  rw [withSuccessor, if_neg (by omega)]

theorem withDecrementedSp_of_pos {s : State} (h : 1 ≤ s.sp.toNat) (k : Byte → Result) :
    withDecrementedSp s k = k (narrow (s.sp.toNat - 1)) := by
  rw [withDecrementedSp, if_pos h]

theorem withDecrementedSp_of_zero {s : State} (h : s.sp.toNat = 0) (k : Byte → Result) :
    withDecrementedSp s k = raise (.addressingError .spRange) 255 s := by
  rw [withDecrementedSp, if_neg (by omega)]

theorem withIncrementedSp_of_lt {p : Byte} (h : p.toNat < 255) (s : State) (k : Byte → Result) :
    withIncrementedSp p s k = k (narrow (p.toNat + 1)) := by
  rw [withIncrementedSp, if_pos (by omega)]

theorem withIncrementedSp_of_255 {p : Byte} (h : p.toNat = 255) (s : State) (k : Byte → Result) :
    withIncrementedSp p s k = raise (.addressingError .spRange) 0 s := by
  rw [withIncrementedSp, if_neg (by omega), h]
  rfl

/-! ## Pushing -/

/-- A push moves the pointer and writes the one cell it then points at (43_stack.md R75). -/
theorem pushed_eq (s : State) (p : Byte) (value : State → Byte) :
    pushed s p value = (s.setReg spIndex p).store p (value (s.setReg spIndex p)) := by
  simp [pushed]

/-! ## The flags of a comparison -/

/-- The three outcomes of a comparison, each with what it means (42_alu.md R69). -/
theorem compareFlags_cases (x y : Byte) :
    (x = y ∧ compareFlags x y = ⟨true, false, false⟩) ∨
    (x.toNat < y.toNat ∧ compareFlags x y = ⟨false, true, false⟩) ∨
    (y.toNat < x.toNat ∧ compareFlags x y = ⟨false, false, true⟩) := by
  unfold compareFlags
  by_cases h : x = y
  · simp [h]
  · have hn : x.toNat ≠ y.toNat := fun e => h (BitVec.eq_of_toNat_eq e)
    by_cases hlt : x.toNat < y.toNat
    · simp [h, hlt]
    · simp [h, hlt]; omega

/-! ## Placing bytes -/

theorem placeBytes_mem_wf (bs : List Byte) : ∀ (s : State) (a : Nat), s.mem.wf = true →
    (placeBytes s a bs).mem.wf = true := by
  induction bs with
  | nil => intro s a h; exact h
  | cons b bs ih =>
    intro s a h
    rw [placeBytes]
    apply ih
    split
    · exact Memory.wf_write h _ _
    · exact h

/-- Placing bytes changes memory and nothing else. -/
theorem placeBytes_eq (bs : List Byte) : ∀ (s : State) (a : Nat),
    placeBytes s a bs = { s with mem := (placeBytes s a bs).mem } := by
  induction bs with
  | nil => intro s a; rfl
  | cons b bs ih =>
    intro s a
    rw [placeBytes, ih]
    split <;> rfl

end Sys2Proof.Machine
end

