-- ==== Sys2Proof/Laws/PerInstr.lean ====
section
/-! SUPPORT. Statements made once per instruction. -/

namespace Sys2Proof.Laws.EncodedLength

/-- Under every configuration the encoding of an instruction has the length the table gives it (30_encoding.md R43, R47)
and one byte more than it has operands. -/
def Statement (i : Instr) : Prop :=
  ∀ c : Config, (encode c i).length = lengthOf i.opcode ∧ (operandBytes i).length + 1 = lengthOf i.opcode

theorem halt : Statement .halt := fun _ => ⟨rfl, rfl⟩
theorem ldi (r imm : Byte) : Statement (.ldi r imm) := fun _ => ⟨rfl, rfl⟩
theorem prn (r : Byte) : Statement (.prn r) := fun _ => ⟨rfl, rfl⟩
theorem mul (a b : Byte) : Statement (.mul a b) := fun _ => ⟨rfl, rfl⟩
theorem cmp (a b : Byte) : Statement (.cmp a b) := fun _ => ⟨rfl, rfl⟩
theorem push (r : Byte) : Statement (.push r) := fun _ => ⟨rfl, rfl⟩
theorem pop (r : Byte) : Statement (.pop r) := fun _ => ⟨rfl, rfl⟩
theorem jmp (r : Byte) : Statement (.jmp r) := fun _ => ⟨rfl, rfl⟩
theorem jeq (r : Byte) : Statement (.jeq r) := fun _ => ⟨rfl, rfl⟩
theorem jne (r : Byte) : Statement (.jne r) := fun _ => ⟨rfl, rfl⟩
theorem call (r : Byte) : Statement (.call r) := fun _ => ⟨rfl, rfl⟩
theorem ret : Statement .ret := fun _ => ⟨rfl, rfl⟩
theorem add (a b : Byte) : Statement (.add a b) := fun _ => ⟨rfl, rfl⟩

end Sys2Proof.Laws.EncodedLength
end

