-- ==== Sys2Proof/Laws/Step.lean ====
section
/-! SUPPORT. What a step can do, once, and the runs made of steps (40_step_loop.md R50, R56). -/

namespace Sys2Proof.Machine

/-- A step that answers a next state was taken from `Running`. -/
theorem running_of_step {s t : State} (h : step s = .next t) : s.status = .running := by
  unfold step at h
  split at h
  · cases h
  · cases h
  · assumption

/-- Everything a step from `Running` can do: run the one instruction the window decodes to, or raise a decode error. -/
theorem step_cases {s : State} (h : s.status = .running) :
    (∃ i rest, opcodeOf s.cfg (s.load s.pc) = some i.opcode ∧
      decodeOperands i.opcode [prefetch s 1, prefetch s 2] = .ok (i, rest) ∧
      decode s.cfg (fetchWindow s) = .ok (i, rest) ∧ step s = exec i s) ∨
    (opcodeOf s.cfg (s.load s.pc) = none ∧ step s = .next (s.raised .decodeError (s.load s.pc))) := by
  simp only [step, h, fetchWindow, decode_cons]
  match ho : opcodeOf s.cfg (s.load s.pc) with
  | none => exact .inr ⟨rfl, rfl⟩
  | some o =>
    obtain ⟨i, rest, hd, rfl⟩ := decodeOperands_two o (prefetch s 1) (prefetch s 2)
    exact .inl ⟨i, rest, rfl, hd, hd, by simp only [hd]⟩

/-! ## Runs -/

/-- A first step may be put before a run. -/
theorem Reaches.head {s t u : State} (h : step s = .next t) (hr : Reaches t u) : Reaches s u := by
  induction hr with
  | refl => exact .tail (.refl s) h
  | tail _ hn ih => exact .tail ih hn

/-- The cut-off run reaches where it stands. -/
theorem reaches_runFor (n : Nat) : ∀ s : State, Reaches s (runFor n s) := by
  induction n with
  | zero => exact .refl
  | succ n ih =>
    intro s
    rw [runFor]
    split
    · rename_i t h
      exact .head h (ih t)
    · exact .refl s
    · exact .refl s

/-- An invariant that every step keeps holds in every state reached. -/
theorem Reaches.invariant {P : State → Prop} (hstep : ∀ s t, P s → step s = .next t → P t) {s t : State}
    (hr : Reaches s t) (hs : P s) : P t := by
  induction hr with
  | refl => exact hs
  | tail _ h ih => exact hstep _ _ ih h

end Sys2Proof.Machine
end

