-- ==== Sys2Proof/Laws/Text.lean ====
section
/-! SUPPORT. What reading a program line gives (30_encoding.md R48): its body, and the value of its digits. -/

namespace Sys2Proof.Machine

/-- What follows the body of a line: nothing, or a comment. -/
theorem takeWhile_before_comment {before tail : List Char} (hb : '#' ∉ before)
    (ht : tail = [] ∨ ∃ comment, tail = '#' :: comment) :
    (before ++ tail).takeWhile (· != '#') = before := by
  have h : before.takeWhile (· != '#') = before :=
    List.takeWhile_eq_self_iff.mpr fun c hc => by
      simpa using fun he : c = '#' => hb (he ▸ hc)
  rw [List.takeWhile_append, h, if_pos rfl]
  obtain rfl | ⟨comment, rfl⟩ := ht <;> simp

theorem trimLeft_append_of_space {pre cs : List Char} (h : ∀ c ∈ pre, c.isWhitespace = true) :
    trimLeft (pre ++ cs) = trimLeft cs := by
  induction pre with
  | nil => rfl
  | cons c pre ih =>
    rw [List.cons_append, trimLeft, List.dropWhile_cons_of_pos (h c (by simp))]
    exact ih fun d hd => h d (by simp [hd])

theorem trimLeft_of_space {pre : List Char} (h : ∀ c ∈ pre, c.isWhitespace = true) : trimLeft pre = [] := by
  simpa [trimLeft] using trimLeft_append_of_space (cs := []) h

theorem trimLeft_of_noSpace {cs : List Char} (h : ∀ c ∈ cs, c.isWhitespace = false) : trimLeft cs = cs := by
  cases cs with
  | nil => rfl
  | cons c cs => exact List.dropWhile_cons_of_neg (by simp [h c (by simp)])

theorem mem_trimLeft {cs : List Char} {c : Char} (hc : c ∈ cs) (h : c.isWhitespace = false) : c ∈ trimLeft cs := by
  have := hc
  rw [← List.takeWhile_append_dropWhile (p := Char.isWhitespace) (l := cs), List.mem_append] at this
  exact this.resolve_left fun ht => by simp [List.mem_takeWhile_imp ht] at h

theorem hash_not_mem_of_space {pre : List Char} (h : ∀ c ∈ pre, c.isWhitespace = true) : '#' ∉ pre :=
  fun hm => absurd (h _ hm) (by decide)

/-- White space before and after the body, and a comment, are no part of it. -/
theorem lineBody_trims {pre body post tail : List Char} (hpre : ∀ c ∈ pre, c.isWhitespace = true)
    (hpost : ∀ c ∈ post, c.isWhitespace = true) (hbody : ∀ c ∈ body, c.isWhitespace = false ∧ c ≠ '#')
    (ht : tail = [] ∨ ∃ comment, tail = '#' :: comment) : lineBody (pre ++ body ++ post ++ tail) = body := by
  have hh : '#' ∉ pre ++ body ++ post := by
    simp only [List.mem_append, not_or]
    exact ⟨⟨hash_not_mem_of_space hpre, fun hm => (hbody _ hm).2 rfl⟩, hash_not_mem_of_space hpost⟩
  have hr : ∀ c ∈ body.reverse, c.isWhitespace = false := fun c hc => (hbody c (by simpa using hc)).1
  rw [lineBody, takeWhile_before_comment hh ht, List.append_assoc, trimLeft_append_of_space hpre]
  obtain rfl | hne := eq_or_ne body []
  · rw [List.nil_append, trimLeft_of_space hpost]; rfl
  · obtain ⟨c, cs, rfl⟩ := List.exists_cons_of_ne_nil hne
    have hl : trimLeft (c :: cs ++ post) = c :: cs ++ post :=
      List.dropWhile_cons_of_neg (by simp [(hbody c (by simp)).1])
    rw [hl, List.reverse_append, trimLeft_append_of_space fun d hd => hpost d (by simpa using hd),
      trimLeft_of_noSpace hr, List.reverse_reverse]

/-- A character that is no white space and stands before any comment is in the body. -/
theorem mem_lineBody {before tail : List Char} {c : Char} (hb : '#' ∉ before)
    (ht : tail = [] ∨ ∃ comment, tail = '#' :: comment) (hc : c ∈ before) (hs : c.isWhitespace = false) :
    c ∈ lineBody (before ++ tail) := by
  rw [lineBody, takeWhile_before_comment hb ht, List.mem_reverse]
  exact mem_trimLeft (by simpa using mem_trimLeft hc hs) hs

/-- Digits read from the left give the value of their positional notation. -/
theorem binaryFrom_digits (acc : Nat) (ds : List Bool) :
    binaryFrom acc (ds.map fun d => if d then '1' else '0') = some (ds.foldl (fun n d => 2 * n + d.toNat) acc) := by
  induction ds generalizing acc with
  | nil => rfl
  | cons d ds ih => cases d <;> exact ih _

/-- Any character but the two digits spoils a literal. -/
theorem binaryFrom_of_mem {cs : List Char} {c : Char} (hc : c ∈ cs) (h0 : c ≠ '0') (h1 : c ≠ '1') (acc : Nat) :
    binaryFrom acc cs = none := by
  fun_induction binaryFrom acc cs with
  | case1 => simp at hc
  | case2 acc cs ih => exact ih ((List.mem_cons.mp hc).resolve_left h0)
  | case3 acc cs ih => exact ih ((List.mem_cons.mp hc).resolve_left h1)
  | case4 => rfl

/-- What a line gives, by its body. -/
theorem parseLine_of_lineBody_digits {cs : List Char} {ds : List Bool} (hne : ds ≠ []) (hl : ds.length ≤ 8)
    (h : lineBody cs = ds.map fun d => if d then '1' else '0') :
    parseLine cs = .ok (some (narrow (ds.foldl (fun n d => 2 * n + d.toNat) 0))) := by
  rw [parseLine, h, if_neg (by simpa using hne), if_neg (by simpa using hl), binaryFrom_digits]

theorem parseLine_of_lineBody_nil {cs : List Char} (h : lineBody cs = []) : parseLine cs = .ok none := by
  rw [parseLine, if_pos h]

theorem parseLine_of_mem_lineBody {cs : List Char} {c : Char} (hc : c ∈ lineBody cs) (h0 : c ≠ '0') (h1 : c ≠ '1') :
    parseLine cs = .error .malformedLiteral := by
  rw [parseLine, if_neg (List.ne_nil_of_mem hc), binaryFrom_of_mem hc h0 h1, ite_self]

end Sys2Proof.Machine
end

