-- ==== Sys2Proof/Tests/Slice0.lean ====
section
/-! SUPPORT. Tests: words written out from the encodings, one step each from the vectors of 95_test_vectors.md (named by
their ids), and for every statement with hypotheses a witness that meets them. -/

namespace Sys2Proof.Tests

open Sys2Proof Sys2Proof.Machine

/-- The reset state with `pc` and the bytes at `pc`. -/
def machineAt (pc : Byte) (bytes : List Byte) : State := placeBytes { State.reset with pc := pc } pc.toNat bytes

/-- The next state, or reset where there is none. -/
def after : Result → State
  | .next t => t
  | .fault _ => State.reset
  | .refused _ => State.reset

def completes : Result → Bool
  | .next _ => true
  | .fault _ => false
  | .refused _ => false

/-- The fault record a state stands in: cause, `at`, `info`. -/
def faultOf (s : State) : Option FaultRecord :=
  match s.status with
  | .faulted f => some f
  | .running => none
  | .halted => none

/-! ## Well-formedness: an ill-formed term for each register operand (30_encoding.md R41) -/

theorem test_wf_accepts : (Instr.ldi 7 255).wf = true ∧ (Instr.mul 0 7).wf = true ∧ Instr.halt.wf = true ∧
    Instr.ret.wf = true := by decide
theorem test_wf_refuses_ldi : (Instr.ldi 8 0).wf = false := by decide
theorem test_wf_refuses_one_operand : (Instr.prn 8).wf = false ∧ (Instr.push 8).wf = false ∧
    (Instr.pop 255).wf = false ∧ (Instr.jmp 8).wf = false ∧ (Instr.jeq 8).wf = false ∧ (Instr.jne 8).wf = false ∧
    (Instr.call 8).wf = false := by decide
theorem test_wf_refuses_first_of_two : (Instr.mul 8 0).wf = false ∧ (Instr.cmp 8 0).wf = false ∧
    (Instr.add 8 0).wf = false := by decide
theorem test_wf_refuses_second_of_two : (Instr.mul 0 8).wf = false ∧ (Instr.cmp 0 8).wf = false ∧
    (Instr.add 0 8).wf = false := by decide

/-! ## Decoding: every row's word, bits written from 30_encoding.md R40 and R43, the last byte leftmost -/

theorem test_decode_halt : decodeTableWord 8 0b00000001 = some .halt := by decide
theorem test_decode_ldi : decodeTableWord 24 0b000010010000000110000010 = some (.ldi 1 9) := by decide
theorem test_decode_prn : decodeTableWord 16 0b0000001001000111 = some (.prn 2) := by decide
theorem test_decode_mul : decodeTableWord 24 0b000000110000001010100010 = some (.mul 2 3) := by decide
theorem test_decode_cmp : decodeTableWord 24 0b000000110000001010100111 = some (.cmp 2 3) := by decide
theorem test_decode_push : decodeTableWord 16 0b0000011101000101 = some (.push 7) := by decide
theorem test_decode_pop : decodeTableWord 16 0b0000001101000110 = some (.pop 3) := by decide
theorem test_decode_jmp : decodeTableWord 16 0b0000001001010100 = some (.jmp 2) := by decide
theorem test_decode_jeq : decodeTableWord 16 0b0000001001010101 = some (.jeq 2) := by decide
theorem test_decode_jne : decodeTableWord 16 0b0000001101010110 = some (.jne 3) := by decide
theorem test_decode_call : decodeTableWord 16 0b0000000101010000 = some (.call 1) := by decide
theorem test_decode_ret : decodeTableWord 8 0b00010001 = some .ret := by decide
theorem test_decode_add : decodeTableWord 24 0b000000010000000010100000 = some (.add 0 1) := by decide

/-- DE1, DE2, DE4, and the ADD byte on the specified machine (DE3). -/
theorem test_decode_unrecognised : decode configDefault [0x00, 0, 0] = .error (.unrecognised 0x00) ∧
    decode configDefault [0xFF, 0, 0] = .error (.unrecognised 0xFF) ∧
    decode configDefault [0x83, 0, 1] = .error (.unrecognised 0x83) ∧
    decode configDefault [0xA0, 0, 1] = .error (.unrecognised 0xA0) := by decide
theorem test_decode_missing_operands : decode configDefault [0x82, 0] = .error (.missingOperand .ldi 1) ∧
    decode configDefault [0x47] = .error (.missingOperand .prn 0) ∧ decode configDefault [] = .error .noByte := by decide
theorem test_default_opcodes_distinct : configDefault.distinct = true ∧ configWithAdd.distinct = true := by decide

/-! ## A table word placed at reset runs as the first instruction -/

theorem test_fetch_word_runs_ldi : (after (step (State.reset.withFetchWord 24 0x080082))).reg 0 = 8 := by decide
theorem test_fetch_word_runs_add :
    step (State.reset.withFetchWord 24 0x0100A0) = exec (.add 0 1) (State.reset.withFetchWord 24 0x0100A0) ∧
    (after (step (State.reset.withFetchWord 24 0x0100A0))).pc = 3 := ⟨rfl, by decide⟩

/-! ## One step each (95_test_vectors.md part 2) -/

/-- H2. -/
theorem test_halt_at_255 : (after (step (machineAt 255 [0x01]))).pc = 0 ∧
    (after (step (machineAt 255 [0x01]))).status = .halted := by decide
/-- T4. -/
theorem test_ldi_at_252 : (after (step (machineAt 252 [0x82, 0, 8]))).reg 0 = 8 ∧
    (after (step (machineAt 252 [0x82, 0, 8]))).pc = 255 := by decide
/-- T2b. -/
theorem test_ldi_at_255 : faultOf (after (step (machineAt 255 [0x82]))) =
    some ⟨.addressingError .pcRange, 255, 1⟩ := by decide
/-- T6. -/
theorem test_prn_at_253 : (after (step ((machineAt 253 [0x47, 0]).setReg 0 9))).out = [9] := by decide
/-- T5. -/
theorem test_prn_at_254 : faultOf (after (step ((machineAt 254 [0x47, 0]).setReg 0 9))) =
    some ⟨.addressingError .pcRange, 254, 0⟩ ∧ (after (step ((machineAt 254 [0x47, 0]).setReg 0 9))).out = [] := by decide
/-- M2. -/
theorem test_mul_wraps : (after (step (((machineAt 0 [0xA2, 0, 1]).setReg 0 200).setReg 1 3))).reg 0 = 88 := by decide
/-- RX2. -/
theorem test_mul_reports_first_operand : faultOf (after (step (machineAt 0 [0xA2, 9, 10]))) =
    some ⟨.addressingError .regIndex, 0, 9⟩ := by decide
/-- CM1. -/
theorem test_cmp_unsigned : (after (step (((machineAt 0 [0xA7, 0, 1]).setReg 0 128).setReg 1 127))).flags =
    ⟨false, false, true⟩ := by decide
/-- CM2. -/
theorem test_cmp_less : (after (step ((machineAt 0 [0xA7, 0, 1]).setReg 1 255))).flags = ⟨false, true, false⟩ := by decide
/-- A1. -/
theorem test_add_wraps : (after (exec (.add 0 1) (((machineAt 0 []).setReg 0 200).setReg 1 100))).reg 0 = 44 := by decide
/-- A5. -/
theorem test_add_disabled : faultOf (after (step (machineAt 0 [0xA0, 0, 1]))) = some ⟨.decodeError, 0, 0xA0⟩ := by decide
/-- PU4. -/
theorem test_push_r7 : (after (step (machineAt 0 [0x45, 7]))).sp = 254 ∧
    (after (step (machineAt 0 [0x45, 7]))).load 254 = 254 := by decide
/-- PR2. -/
theorem test_push_sp_before_successor : faultOf (after (step ((machineAt 254 [0x45, 2]).setSp 0))) =
    some ⟨.addressingError .spRange, 254, 255⟩ := by decide
/-- PO3. -/
theorem test_pop_r7 : (after (step (((machineAt 0 [0x46, 7]).setSp 254).store 254 100))).sp = 101 := by decide
/-- PO5. -/
theorem test_pop_r7_at_255 : (after (step ((machineAt 0 [0x46, 7]).store 255 9))).sp = 10 := by decide
/-- T7. -/
theorem test_jmp_at_254 : (after (step ((machineAt 254 [0x54, 2]).setReg 2 7))).pc = 7 := by decide
/-- T8b. -/
theorem test_jeq_not_taken_at_254 : faultOf (after (step ((machineAt 254 [0x55, 2]).setReg 2 7))) =
    some ⟨.addressingError .pcRange, 254, 0⟩ := by decide
/-- RX4. -/
theorem test_jeq_checks_register_not_taken : faultOf (after (step (machineAt 0 [0x55, 255]))) =
    some ⟨.addressingError .regIndex, 0, 255⟩ := by decide
/-- J8. -/
theorem test_jne_not_taken : (after (step (((machineAt 20 [0x56, 3]).setReg 3 12).setFlags ⟨true, false, false⟩))).pc =
    22 := by decide
/-- T11. -/
theorem test_call_at_253 : (after (step ((machineAt 253 [0x50, 1]).setReg 1 40))).load 254 = 255 ∧
    (after (step ((machineAt 253 [0x50, 1]).setReg 1 40))).pc = 40 := by decide
/-- CA3. -/
theorem test_call_r7 : (after (step (machineAt 0 [0x50, 7]))).pc = 254 := by decide
/-- T9. -/
theorem test_ret_at_255 : (after (step (((machineAt 255 [0x11]).setSp 254).store 254 3))).pc = 3 := by decide
/-- RE2. -/
theorem test_ret_on_empty_stack : faultOf (after (step (machineAt 21 [0x11]))) =
    some ⟨.addressingError .spRange, 21, 0⟩ := by decide
/-- H3, H4. -/
theorem test_no_step_when_ended : completes (step State.reset.halt) = false ∧
    completes (step (State.reset.raised .decodeError 0)) = false := by decide

/-- The code table of 60_exceptions.md R91. -/
theorem test_fault_codes :
    [FaultCause.decodeError, .addressingError .pcRange, .addressingError .spRange, .addressingError .regIndex,
      .aluContractError].map (fun c => (c.code, c.subCode)) = [(1, 0), (2, 1), (2, 2), (2, 3), (3, 0)] := by decide

/-! ## Loading and text -/

theorem test_load_too_long : State.resetWith configDefault (List.replicate 257 0) = .error .imageTooLong := by
  rw [State.resetWith, if_neg (by rw [List.length_replicate]; decide)]
/-- Three lines of the example of 30_encoding.md R48. -/
theorem test_program_text :
    parseProgram ["10000010  # LDI R0,8".toList, "# a comment".toList, "".toList, "  00000000".toList, "00001000".toList] =
      .ok [0x82, 0, 8] := by decide
/-- A bare line of that example, a shorter literal and a line of white space alone. -/
theorem test_program_line_forms : parseLine "00001000".toList = .ok (some 8) ∧ parseLine "101".toList = .ok (some 5) ∧
    parseLine "  \t".toList = .ok none := by decide
theorem test_program_text_malformed : parseLine "10000012".toList = .error .malformedLiteral ∧
    parseLine "100000010".toList = .error .malformedLiteral := by decide
/-- The mnemonic forms of 30_encoding.md R49. -/
theorem test_mnemonic_text : instrText (.ldi 0 8) = "LDI R0,8" ∧ instrText (.mul 0 1) = "MUL R0,R1" ∧
    instrText .ret = "RET" := by decide

/-! ## Witnesses: the hypotheses of each statement, met together, each clause at a boundary -/

/-- LDI, MUL, CMP and ADD: completion at 252, operand bytes at 254, register index and successor at 253. -/
theorem witness_three_byte_clauses : (machineAt 252 []).pc.toNat + 3 ≤ 255 ∧ 255 < (machineAt 254 []).pc.toNat + 2 ∧
    ((machineAt 253 []).pc.toNat + 2 ≤ 255 ∧ 7 < (8 : Byte).toNat) ∧
    ((machineAt 253 []).pc.toNat + 2 ≤ 255 ∧ 255 < (machineAt 253 []).pc.toNat + 3) := by decide

/-- CMP: the three orders. -/
theorem witness_cmp_orders : (5 : Byte).toNat = (5 : Byte).toNat ∧ (127 : Byte).toNat < (128 : Byte).toNat ∧
    (0 : Byte).toNat < (255 : Byte).toNat := by decide

/-- PRN: completion at 253, operand byte at 255, register index and successor at 254. -/
theorem witness_two_byte_clauses : (machineAt 253 []).pc.toNat + 2 ≤ 255 ∧ 255 < (machineAt 255 []).pc.toNat + 1 ∧
    ((machineAt 254 []).pc.toNat + 1 ≤ 255 ∧ 7 < (8 : Byte).toNat) ∧
    ((machineAt 254 []).pc.toNat + 1 ≤ 255 ∧ 255 < (machineAt 254 []).pc.toNat + 2) := by decide

/-- PUSH and CALL: the pointer at 1, at 0, and the successor at 254. -/
theorem witness_push_clauses :
    (1 ≤ ((machineAt 253 []).setSp 1).sp.toNat ∧ ((machineAt 253 []).setSp 1).pc.toNat + 2 ≤ 255) ∧
    (((machineAt 254 []).setSp 0).pc.toNat + 1 ≤ 255 ∧ ((machineAt 254 []).setSp 0).sp = 0) ∧
    ((machineAt 254 []).pc.toNat + 1 ≤ 255 ∧ (machineAt 254 []).sp ≠ 0 ∧ 255 < (machineAt 254 []).pc.toNat + 2) := by
  decide

/-- POP: the pointer at 254 and at 255, the popped byte at 254 and at 255, the successor at 254 for both forms. -/
theorem witness_pop_clauses :
    ((0 : RegIdx) ≠ spIndex ∧ ((machineAt 253 []).setSp 254).sp ≠ 255 ∧ ((machineAt 253 []).setSp 254).pc.toNat + 2 ≤ 255) ∧
    (((machineAt 253 []).store 255 254).load ((machineAt 253 []).store 255 254).sp ≠ 255 ∧
      ((machineAt 253 []).store 255 254).pc.toNat + 2 ≤ 255) ∧
    ((machineAt 254 []).pc.toNat + 1 ≤ 255 ∧ (0 : RegIdx) ≠ spIndex ∧ (machineAt 254 []).sp = 255) ∧
    (((machineAt 253 []).store 255 255).pc.toNat + 1 ≤ 255 ∧
      ((machineAt 253 []).store 255 255).load ((machineAt 253 []).store 255 255).sp = 255) ∧
    ((machineAt 254 []).pc.toNat + 1 ≤ 255 ∧ (machineAt 254 []).load (machineAt 254 []).sp ≠ 255 ∧
      ((machineAt 254 []).setSp 254).sp ≠ 255 ∧ 255 < (machineAt 254 []).pc.toNat + 2) := by decide

/-- JMP, JEQ, JNE: taken at 254, not taken at 253, operand byte at 255, not taken at 254. -/
theorem witness_jump_clauses :
    ((machineAt 254 []).pc.toNat + 1 ≤ 255 ∧ ((machineAt 254 []).setFlags ⟨true, false, false⟩).flags.e = true) ∧
    ((machineAt 253 []).pc.toNat + 2 ≤ 255 ∧ (machineAt 253 []).flags.e = false) ∧
    255 < (machineAt 255 []).pc.toNat + 1 ∧
    ((machineAt 254 []).flags.e = false ∧ 255 < (machineAt 254 []).pc.toNat + 2) ∧
    (((machineAt 254 []).setFlags ⟨true, false, false⟩).pc.toNat + 1 ≤ 255 ∧
      255 < ((machineAt 254 []).setFlags ⟨true, false, false⟩).pc.toNat + 2) := by decide

/-- RET: the pointer at 254 and at 255. -/
theorem witness_ret_clauses : ((machineAt 0 []).setSp 254).sp ≠ 255 ∧ (machineAt 0 []).sp = 255 := by decide

theorem witness_StepRunsDecodedInstruction : (machineAt 252 [0x82, 0, 8]).status = .running ∧
    decode (machineAt 252 [0x82, 0, 8]).cfg (fetchWindow (machineAt 252 [0x82, 0, 8])) = .ok (.ldi 0 8, []) ∧
    255 < (machineAt 255 []).pc.toNat + 1 ∧ 255 < (machineAt 254 []).pc.toNat + 2 := by decide

theorem witness_EncodedInstructionInMemoryRuns :
    (machineAt 253 [0x82, 0, 8]).status = .running ∧ (machineAt 253 [0x82, 0, 8]).cfg.distinct = true ∧
    (machineAt 253 [0x82, 0, 8]).cfg.enables (Instr.ldi 0 8).opcode = true ∧
    (machineAt 253 [0x82, 0, 8]).pc.toNat + (encode (machineAt 253 [0x82, 0, 8]).cfg (.ldi 0 8)).length ≤ 256 ∧
    ∀ k (hk : k < (encode (machineAt 253 [0x82, 0, 8]).cfg (.ldi 0 8)).length),
      (machineAt 253 [0x82, 0, 8]).load (narrow ((machineAt 253 [0x82, 0, 8]).pc.toNat + k)) =
        (encode (machineAt 253 [0x82, 0, 8]).cfg (.ldi 0 8))[k] := by
  decide

theorem witness_DecodeErrorExactlyWhenUnrecognised :
    (machineAt 255 [0xFF]).status = .running ∧
    (∀ o, (machineAt 255 [0xFF]).cfg.enables o = true →
      (machineAt 255 [0xFF]).cfg.byteOf o ≠ (machineAt 255 [0xFF]).load (machineAt 255 [0xFF]).pc) ∧
    ∃ t f, step (machineAt 255 [0xFF]) = .next t ∧ t.status = .faulted f ∧ f.cause = .decodeError := by
  refine ⟨by decide, fun o => ?_, _, _, rfl, rfl, rfl⟩
  cases o <;> decide

theorem witness_NoStepFromTerminalStatus : State.reset.halt.status = .halted ∧
    (State.reset.raised .decodeError 0).status = .faulted ⟨.decodeError, 0, 0⟩ := by decide

theorem witness_RunningStep : State.reset.status = .running := by decide

theorem witness_HaltedSetByHaltAlone : (∃ t, step (machineAt 0 [0x01]) = .next t) ∧ State.reset.halt.halted = true :=
  ⟨⟨_, rfl⟩, by decide⟩

theorem witness_ExecRaisesTheFirstFailedCheck :
    firstFault (.push 9) ((machineAt 254 []).setSp 0) = some (.addressingError .regIndex, 9) ∧
    firstFault (.push 2) ((machineAt 253 []).setSp 1) = none := by decide

theorem witness_IllFormedInstructionAlwaysFaults : (Instr.jeq 8).wf = false ∧
    (machineAt 254 []).pc.toNat + lengthOf (Instr.jeq 8).opcode ≤ 256 := by decide

theorem witness_FlagsWrittenByCmpAlone :
    (∃ t, exec (.mul 0 1) (machineAt 252 []) = .next t ∧ (Instr.mul 0 1).opcode ≠ .cmp) ∧
    (∃ t, exec (.cmp 0 1) (machineAt 252 []) = .next t ∧ t.status = (machineAt 252 []).status ∧
      (machineAt 252 []).status = .running) ∧
    (∃ t, Reaches ((machineAt 0 [0x01]).setFlags ⟨false, true, false⟩) t ∧
      ((machineAt 0 [0x01]).setFlags ⟨false, true, false⟩).flags.exactlyOne = true) :=
  ⟨⟨_, rfl, by decide⟩, ⟨_, rfl, by decide, by decide⟩, ⟨_, .tail (.refl _) rfl, by decide⟩⟩

theorem witness_MemoryWrittenByPushAndCallAlone : ∃ t, exec (.push 2) ((machineAt 0 []).setReg 2 42) = .next t ∧
    t.load 254 ≠ ((machineAt 0 []).setReg 2 42).load 254 := ⟨_, rfl, by decide⟩

theorem witness_RegistersWrittenAsTabled : ∃ t, exec (.pop 3) (((machineAt 0 []).setSp 254).store 254 42) = .next t ∧
    t.reg 3 ≠ (((machineAt 0 []).setSp 254).store 254 42).reg 3 := ⟨_, rfl, by decide⟩

theorem witness_OutputGrowsByPrnAlone : ∃ t, step (machineAt 253 [0x47, 7]) = .next t ∧ t.out ≠ [] := ⟨_, rfl, by decide⟩

theorem witness_ConfigurationNeverWritten : ∃ t, Reaches (machineAt 0 [0x01]) t ∧ t.halted = true :=
  ⟨_, .tail (.refl _) rfl, by decide⟩

theorem witness_ResetMeetsInvariant : ∃ s, State.resetWith configDefault [0x01, 0x00, 0x11] = .ok s := ⟨_, rfl⟩

theorem witness_StepKeepsInvariant : (machineAt 0 [0x45, 2]).Inv = true ∧ completes (step (machineAt 0 [0x45, 2])) = true := by
  decide

/-- The image lengths 0, 256 and 257, and the last address beyond an image of 255 bytes. -/
theorem witness_LoadedImageGivesResetState : ([] : List Byte).length ≤ 256 ∧ (List.replicate 256 (1 : Byte)).length ≤ 256 ∧
    (List.replicate 255 (1 : Byte)).length ≤ (255 : Byte).toNat ∧ 256 < (List.replicate 257 (1 : Byte)).length := by
  simp only [List.length_replicate, List.length_nil]; decide

theorem witness_DecodeOfEncode : configWithAdd.distinct = true ∧ configWithAdd.enables (Instr.add 255 8).opcode = true := by
  decide

theorem witness_EncodeOfDecode : decode configDefault [0x46, 0xFF, 0x01] = .ok (.pop 0xFF, [0x01]) := by decide

theorem witness_DecodingByExactOpcodeMatch : configDefault.distinct = true ∧
    (configDefault.enables .ldi = true ∧ configDefault.byteOf .ldi = 0x82 ∧ lengthOf .ldi ≤ [(0 : Byte), 8].length + 1) ∧
    ∀ o ∈ opcodes, configDefault.enables o = true → configDefault.byteOf o ≠ 0x83 := by decide

theorem witness_AddDecodableOnlyWhenEnabled : (configWithAdd.distinct = true ∧ configWithAdd.addEnable = true) ∧
    (configDefault.addEnable = false ∧ decode configDefault [0x11] = .ok (.ret, [])) ∧
    ((machineAt 0 [0xA0]).status = .running ∧ (machineAt 0 [0xA0]).cfg = configDefault ∧
      (machineAt 0 [0xA0]).load (machineAt 0 [0xA0]).pc = 0xA0) := by decide

/-- A step at 254, where the third prefetched byte is the fallback: `JMP R2` there completes. -/
theorem witness_steps_for_noninterference : completes (step (machineAt 254 [0x54, 2])) = true ∧
    completes (step ((machineAt 252 [0xA7, 0, 1]).setFlags ⟨false, false, true⟩)) = true ∧
    completes (step (machineAt 253 [0x47, 0])) = true := by decide

theorem witness_PushThenPopRoundTrips : (0 : RegIdx) ≠ spIndex ∧ (6 : RegIdx) ≠ spIndex ∧
    1 ≤ ((machineAt 251 []).setSp 1).sp.toNat ∧ ((machineAt 251 []).setSp 1).pc.toNat + 4 ≤ 255 := by decide

theorem witness_CallThenRetReturns : 1 ≤ ((machineAt 253 []).setSp 1).sp.toNat ∧
    ((machineAt 253 []).setSp 1).pc.toNat + 2 ≤ 255 ∧
    ∃ t, exec (.call 1) ((machineAt 253 []).setSp 1) = .next t ∧ ∃ u : State, u.sp = t.sp ∧ u.load u.sp = t.load t.sp :=
  ⟨by decide, by decide, _, rfl, _, rfl, rfl⟩

/-- The pushed byte is HALT's opcode in the one case and no opcode in the other. -/
theorem witness_PushedByteIsFetchedNext : (machineAt 6 []).status = .running ∧ (machineAt 6 []).pc.toNat + 2 ≤ 255 ∧
    ((machineAt 6 []).setSp 9).sp.toNat = (machineAt 6 []).pc.toNat + 3 ∧ (0 : RegIdx) ≠ spIndex ∧
    opcodeOf configDefault (((machineAt 6 []).setReg 0 1).reg 0) = some .halt ∧
    opcodeOf configDefault (((machineAt 6 []).setReg 0 0).reg 0) = none := by decide

theorem witness_EndOfRunIsUnique : ∃ t, Reaches (machineAt 0 [0x01]) t ∧ t.status ≠ .running :=
  ⟨_, .tail (.refl _) rfl, by decide⟩

theorem witness_ReachableStatesMeetInvariant : ∃ s t, State.resetWith configDefault [0x46, 0x00] = .ok s ∧ Reaches s t ∧
    t.status = .faulted ⟨.addressingError .spRange, 0, 0⟩ := ⟨_, _, rfl, .tail (.refl _) rfl, by decide⟩

/-- A bare digit with no white space, an eight-digit line with both and a comment, a blank line, and a stray character. -/
theorem witness_ProgramLineGivesItsByte :
    ((∀ c ∈ ([] : List Char), c.isWhitespace = true) ∧ ([] : List Char) = [] ∧ [true] ≠ [] ∧ [true].length ≤ 8) ∧
    ((∀ c ∈ [' ', '\t'], c.isWhitespace = true) ∧ (∃ comment, ['#', 'x'] = '#' :: comment) ∧
      [true, false, false, false, false, false, true, false].length ≤ 8) ∧
    ('#' ∉ ['1', '2'] ∧ '2' ∈ ['1', '2'] ∧ '2'.isWhitespace = false ∧ '2' ≠ '0' ∧ '2' ≠ '1') :=
  ⟨⟨by simp, rfl, by decide, by decide⟩, ⟨by simp [Char.isWhitespace], ⟨_, rfl⟩, by decide⟩, by decide⟩

end Sys2Proof.Tests
end

/-! Proofs about the status a step leaves behind (10_state.md R15): a rule for each check that stands before an
instruction's effects, and from these what every instruction but HALT does to `Status`. -/

namespace Sys2Proof.Machine

/-! ## The checks: a fault record in the unchanged state, or on to the continuation -/

/-- The answer `r` to an instruction executed in `s`: always a next state, which is `s` with a fault raised
(60_exceptions.md R90) or a state that `Q` holds of. -/
def FaultsOr (s : State) (Q : State → Prop) (r : Result) : Prop :=
  ∃ t, r = .next t ∧ ((∃ c info, t = s.raised c info) ∨ Q t)

section Checks

variable {s : State} {Q : State → Prop}

theorem faultsOr_next {t : State} (h : Q t) : FaultsOr s Q (.next t) := ⟨t, rfl, .inr h⟩

theorem faultsOr_raise (c : FaultCause) (info : Byte) : FaultsOr s Q (raise c info s) :=
  ⟨_, rfl, .inl ⟨c, info, rfl⟩⟩

/-- Check (2), 40_step_loop.md R52. -/
theorem faultsOr_needBytes {o : Opcode} {k : Result} (h : FaultsOr s Q k) : FaultsOr s Q (needBytes o s k) := by
  by_cases hb : s.pc.toNat + lengthOf o ≤ 256
  · rwa [needBytes_of_le hb]
  · rw [needBytes_of_gt (by omega)]
    exact faultsOr_raise _ _

/-- Check (3), 40_step_loop.md R53. -/
theorem faultsOr_withReg {b : Byte} {k : RegIdx → Result} (h : ∀ r, FaultsOr s Q (k r)) :
    FaultsOr s Q (withReg b s k) := by
  obtain ⟨r, -, hr⟩ | ⟨-, hr⟩ := withReg_cases b s k <;> rw [hr]
  · exact h r
  · exact faultsOr_raise _ _

/-- Check (4) of a push, 43_stack.md R75. -/
theorem faultsOr_withDecrementedSp {k : Byte → Result} (h : FaultsOr s Q (k (narrow (s.sp.toNat - 1)))) :
    FaultsOr s Q (withDecrementedSp s k) := by
  by_cases hp : 1 ≤ s.sp.toNat
  · rwa [withDecrementedSp_of_pos hp]
  · rw [withDecrementedSp_of_zero (by omega)]
    exact faultsOr_raise _ _

/-- Check (4) of a pop, 43_stack.md R75. -/
theorem faultsOr_withIncrementedSp {p : Byte} {k : Byte → Result} (h : FaultsOr s Q (k (narrow (p.toNat + 1)))) :
    FaultsOr s Q (withIncrementedSp p s k) := by
  by_cases hp : p.toNat < 255
  · rwa [withIncrementedSp_of_lt hp]
  · rw [withIncrementedSp_of_255 (by omega)]
    exact faultsOr_raise _ _

/-- Check (5), 40_step_loop.md R54. -/
theorem faultsOr_withSuccessor {o : Opcode} {k : Byte → Result}
    (h : FaultsOr s Q (k (narrow (s.pc.toNat + lengthOf o)))) : FaultsOr s Q (withSuccessor o s k) := by
  by_cases hn : s.pc.toNat + lengthOf o ≤ 255
  · rwa [withSuccessor_of_le hn]
  · rw [withSuccessor_of_gt (by omega)]
    exact faultsOr_raise _ _

/-- An ALU instruction (42_alu.md): its checks, then one operation and the new `pc`. -/
theorem faultsOr_aluInstr {o : Opcode} {op : RegIdx → RegIdx → State → State} {b1 b2 : Byte}
    (h : ∀ a b, Q ((op a b s).setPc (narrow (s.pc.toNat + lengthOf o)))) : FaultsOr s Q (aluInstr o op b1 b2 s) :=
  faultsOr_needBytes <| faultsOr_withReg fun a => faultsOr_withReg fun b => faultsOr_withSuccessor <|
    faultsOr_next (h a b)

/-- A conditional jump (44_control.md R82, R83) that completes writes `pc` alone. -/
theorem faultsOr_jumpIf {o : Opcode} {taken : Bool} {b : Byte} (h : ∀ a, Q (s.setPc a)) :
    FaultsOr s Q (jumpIf o taken b s) := by
  refine faultsOr_needBytes <| faultsOr_withReg fun r => ?_
  by_cases ht : taken = true
  · rw [if_pos ht]
    exact faultsOr_next (h _)
  · rw [if_neg ht]
    exact faultsOr_withSuccessor (faultsOr_next (h _))

end Checks

/-! ## The status after an instruction -/

/-- The model's bit `Halted` is `Status = Halted` (10_state.md R22 (d)). -/
theorem State.halted_iff (s : State) : s.halted = true ↔ s.status = .halted := by simp [State.halted]

theorem State.raised_not_halted (s : State) (c : FaultCause) (info : Byte) : ¬ (s.raised c info).halted = true := by
  simp [State.halted_iff]

/-- Every instruction but HALT faults or leaves `Status` as it was. -/
theorem exec_keeps_status {i : Instr} (hi : i ≠ .halt) (s : State) :
    FaultsOr s (fun t => t.status = s.status) (exec i s) := by
  cases i with
  | halt => exact absurd rfl hi
  | ldi r imm =>
    exact faultsOr_needBytes <| faultsOr_withReg fun _ => faultsOr_withSuccessor <| faultsOr_next rfl
  | prn r =>
    exact faultsOr_needBytes <| faultsOr_withReg fun _ => faultsOr_withSuccessor <| faultsOr_next rfl
  | mul a b => exact faultsOr_aluInstr fun _ _ => rfl
  | cmp a b => exact faultsOr_aluInstr fun _ _ => rfl
  | add a b => exact faultsOr_aluInstr fun _ _ => rfl
  | push r =>
    exact faultsOr_needBytes <| faultsOr_withReg fun _ => faultsOr_withDecrementedSp <| faultsOr_withSuccessor <|
      faultsOr_next rfl
  | pop r =>
    exact faultsOr_needBytes <| faultsOr_withReg fun _ => faultsOr_withIncrementedSp <| faultsOr_withSuccessor <|
      faultsOr_next rfl
  | jmp r => exact faultsOr_needBytes <| faultsOr_withReg fun _ => faultsOr_next rfl
  | jeq r => exact faultsOr_jumpIf fun _ => rfl
  | jne r => exact faultsOr_jumpIf fun _ => rfl
  | call r =>
    exact faultsOr_needBytes <| faultsOr_withReg fun _ => faultsOr_withDecrementedSp <| faultsOr_withSuccessor <|
      faultsOr_next rfl
  | ret =>
    rw [exec, execRet]
    exact faultsOr_withIncrementedSp <| faultsOr_next rfl

/-- HALT sets the bit `Halted` (40_step_loop.md R57). -/
theorem halted_of_exec_halt {s t : State} (h : exec .halt s = .next t) : t.halted = true := by
  cases h
  simp [State.halted_iff]

/-- Executed where `Halted` is clear, an instruction sets it exactly when it is HALT. -/
theorem exec_halted_iff {i : Instr} {s t : State} (hs : ¬ s.halted = true) (h : exec i s = .next t) :
    t.halted = true ↔ i = .halt := by
  by_cases hi : i = .halt
  · subst hi
    simp [halted_of_exec_halt h]
  · obtain ⟨u, hu, hcases⟩ := exec_keeps_status hi s
    obtain rfl : t = u := by simpa [h] using hu
    refine iff_of_false ?_ hi
    obtain ⟨c, info, rfl⟩ | hstatus := hcases
    · exact s.raised_not_halted c info
    · rwa [State.halted_iff, hstatus, ← State.halted_iff]

/-- HALT is the one instruction of its table row. -/
theorem opcode_eq_halt_iff (i : Instr) : i.opcode = .halt ↔ i = .halt := by
  cases i <;> simp [Instr.opcode]

/-- A step leaves `Halted` set exactly when the byte at the old `pc` is recognised as HALT (10_state.md R15). -/
theorem step_halted_iff {s t : State} (h : step s = .next t) :
    t.halted = true ↔ opcodeOf s.cfg (s.load s.pc) = some .halt := by
  have hrun := running_of_step h
  obtain ⟨i, rest, hop, -, -, hexec⟩ | ⟨hop, hraise⟩ := step_cases hrun
  · have hs : ¬ s.halted = true := by simp [State.halted_iff, hrun]
    rw [exec_halted_iff hs (hexec ▸ h), hop, Option.some_inj, opcode_eq_halt_iff]
  · obtain rfl : t = s.raised .decodeError (s.load s.pc) := by simpa [h] using hraise
    simp [State.raised_not_halted, hop]

/-- No step is taken from a state where `Halted` is set (40_step_loop.md R50). -/
theorem step_ne_next_of_halted {s : State} (hs : s.halted = true) (t : State) : step s ≠ .next t := by
  intro h
  have hrun := running_of_step h
  rw [State.halted_iff, hrun] at hs
  cases hs

/-- Settles O19: HALT alone sets the status `Halted`, since every other instruction keeps the status or faults, and no
step leaves it. -/
theorem haltedSetByHaltAloneAndNeverCleared : Obligations.HaltedSetByHaltAloneAndNeverCleared :=
  ⟨rfl, fun _ _ => step_halted_iff, fun _ t hs => step_ne_next_of_halted hs t⟩

end Sys2Proof.Machine

namespace Sys2Proof

/-! ## Decoding by the opcode byte alone (30_encoding.md R44) -/

/-- With the table's bytes present, whatever they are, a recognised opcode decodes to an instruction of its own row and
takes as many bytes as the row says: no operand byte, one or two, by the row's format (30_encoding.md R40, R47). -/
theorem decodeOperands_of_lengthOf_le {o : Opcode} {bs : List Byte} (h : lengthOf o ≤ bs.length + 1) :
    ∃ i rest, decodeOperands o bs = .ok (i, rest) ∧ i.opcode = o ∧ bs.length + 1 = lengthOf o + rest.length := by
  cases o with
  | halt | ret => exact ⟨_, bs, rfl, rfl, Nat.add_comm ..⟩
  | prn | push | pop | jmp | jeq | jne | call =>
    obtain ⟨b1, rest, rfl⟩ := List.exists_cons_of_length_pos (Nat.le_of_succ_le_succ h)
    exact ⟨_, rest, rfl, rfl, Nat.add_comm _ 2⟩
  | ldi | mul | cmp | add =>
    obtain ⟨b1, tail, rfl⟩ := List.exists_cons_of_length_pos (Nat.lt_of_succ_lt (Nat.le_of_succ_le_succ h))
    obtain ⟨b2, rest, rfl⟩ := List.exists_cons_of_length_pos (Nat.le_of_succ_le_succ (Nat.le_of_succ_le_succ h))
    exact ⟨_, rest, rfl, rfl, Nat.add_comm _ 3⟩

/-- A byte the opcode map recognises leaves the rest to its operands (30_encoding.md R44). -/
theorem decode_cons_of_opcodeOf_some {c : Config} {b0 : Byte} {o : Opcode} (h : opcodeOf c b0 = some o)
    (rest : List Byte) : decode c (b0 :: rest) = decodeOperands o rest := by
  rw [decode_cons, h]

/-- A byte it does not recognise is rejected as such, whatever follows (30_encoding.md R46). -/
theorem decode_cons_of_opcodeOf_none {c : Config} {b0 : Byte} (h : opcodeOf c b0 = none) (rest : List Byte) :
    decode c (b0 :: rest) = .error (.unrecognised b0) := by
  rw [decode_cons, h]

/-- Settles O32: with distinct opcode bytes `opcodeOf` finds the one mnemonic the first byte stands for, or none, and
`decode` follows it. -/
theorem decodingByExactOpcodeMatch : Obligations.DecodingByExactOpcodeMatch := by
  intro c b0 bs hdistinct
  constructor
  · rintro o henabled rfl hlen
    rw [decode_cons_of_opcodeOf_some (opcodeOf_byteOf hdistinct henabled)]
    exact decodeOperands_of_lengthOf_le hlen
  · intro hnone
    exact decode_cons_of_opcodeOf_none (opcodeOf_none.mpr hnone) bs

end Sys2Proof

/-! The load and output instructions (41_load_output.md): LDI and PRN run the same checks (2), (3), (5) of
40_step_loop.md R56 before their one effect, so what each check answers is said once for both. -/

namespace Sys2Proof.Machine

/-! ## What the checks make of an instruction, stated of its meaning's outermost operations -/

section Checks

variable {i : Instr} {s : State} {o : Opcode}

/-- Check (2) fails (40_step_loop.md R52), whatever follows it. -/
theorem raises_of_missing_operand {k : Result} (hi : exec i s = needBytes o s k)
    (h : 255 < s.pc.toNat + lengthOf o - 1) :
    Raises i s (.addressingError .pcRange) (narrow (s.pc.toNat + lengthOf o - 1)) :=
  hi.trans (needBytes_of_gt h k)

/-- Check (3) fails after check (2) passed (40_step_loop.md R53). -/
theorem raises_of_bad_register {b : Byte} {k : RegIdx → Result} (hi : exec i s = needBytes o s (withReg b s k))
    (hlen : s.pc.toNat + lengthOf o - 1 ≤ 255) (hb : 7 < b.toNat) : Raises i s (.addressingError .regIndex) b := by
  rw [needBytes_of_le (by omega)] at hi
  exact hi.trans (withReg_of_gt hb s k)

variable {r : RegIdx} {k : RegIdx → Byte → Result}
  (hi : exec i s = needBytes o s (withReg (regByte r) s fun r => withSuccessor o s (k r)))
include hi

/-- Check (5) fails after checks (2) and (3) passed (40_step_loop.md R54). -/
theorem raises_of_no_successor (hlen : s.pc.toNat + lengthOf o - 1 ≤ 255) (h : 255 < s.pc.toNat + lengthOf o) :
    Raises i s (.addressingError .pcRange) (narrow (s.pc.toNat + lengthOf o)) := by
  rw [needBytes_of_le (by omega), withReg_regByte] at hi
  exact hi.trans (withSuccessor_of_gt h (k r))

/-- All three checks pass: the effect gets the register and the successor address. -/
theorem exec_of_successor_le (h : s.pc.toNat + lengthOf o ≤ 255) :
    exec i s = k r (narrow (s.pc.toNat + lengthOf o)) := by
  rw [hi, needBytes_of_le (by omega), withReg_regByte, withSuccessor_of_le h]

end Checks

/-! ## LDI -/

/-- LDI that completes (41_load_output.md R60). -/
theorem exec_ldi_of_le {s : State} (h : s.pc.toNat + 3 ≤ 255) (r : RegIdx) (imm : Byte) :
    exec (.ldi (regByte r) imm) s = .next ((s.setReg r imm).setPc (narrow (s.pc.toNat + 3))) :=
  (exec_of_successor_le (o := .ldi) rfl h).trans rfl

/-- Settles O2: the three checks of LDI in order, then its two writes. -/
theorem ldiLoadsImmediate : Obligations.LdiLoadsImmediate := by
  refine ⟨fun r imm s h => ⟨_, exec_ldi_of_le h r imm, ?_⟩, fun b imm s h => ?_, fun b imm s hlen hb => ?_,
    fun r imm s hlen h => ?_⟩
  · have hregs : SameRegsBut [r] s (s.setReg r imm) := fun _ hk =>
      s.setReg_reg_other imm (List.ne_of_not_mem_cons hk)
    exact ⟨s.setReg_reg_same r imm, hregs, narrow_toNat_of_le h, fun _ => rfl, rfl, rfl, rfl, rfl⟩
  · exact raises_of_missing_operand (o := .ldi) rfl h
  · exact raises_of_bad_register (o := .ldi) rfl hlen hb
  · exact raises_of_no_successor (o := .ldi) rfl hlen h

/-! ## PRN -/

/-- PRN that completes (41_load_output.md R61). -/
theorem exec_prn_of_le {s : State} (h : s.pc.toNat + 2 ≤ 255) (r : RegIdx) :
    exec (.prn (regByte r)) s = .next ((s.emit (s.reg r)).setPc (narrow (s.pc.toNat + 2))) :=
  (exec_of_successor_le (o := .prn) rfl h).trans rfl

/-- Settles O3: the three checks of PRN in order, then the byte emitted and the new `pc`. -/
theorem prnEmitsRegister : Obligations.PrnEmitsRegister := by
  refine ⟨fun r s h => ⟨_, exec_prn_of_le h r, ?_⟩, fun b s h => ?_, fun b s hlen hb => ?_, fun r s hlen h => ?_⟩
  · exact ⟨rfl, narrow_toNat_of_le h, fun _ => rfl, fun _ => rfl, rfl, rfl, rfl⟩
  · exact raises_of_missing_operand (o := .prn) rfl h
  · exact raises_of_bad_register (o := .prn) rfl hlen hb
  · exact raises_of_no_successor (o := .prn) rfl hlen h

end Sys2Proof.Machine

/-! The ALU instructions (42_alu.md): MUL, CMP and ADD run the same checks (2), (3), (5) of 40_step_loop.md R56 before
their one operation, so their faults in order, and what they answer when no check fails, are said once for all three. -/

namespace Sys2Proof.Machine

/-- The faults, in order, of an instruction of two register operands and three bytes (40_step_loop.md R52 to R54). -/
def FaultsAsAlu (i : Byte → Byte → Instr) : Prop :=
  (∀ (b1 b2 : Byte) (s : State), 255 < s.pc.toNat + 2 →
    Raises (i b1 b2) s (.addressingError .pcRange) (narrow (s.pc.toNat + 2))) ∧
  (∀ (b1 b2 : Byte) (s : State), s.pc.toNat + 2 ≤ 255 → 7 < b1.toNat →
    Raises (i b1 b2) s (.addressingError .regIndex) b1) ∧
  (∀ (a : RegIdx) (b2 : Byte) (s : State), s.pc.toNat + 2 ≤ 255 → 7 < b2.toNat →
    Raises (i (regByte a) b2) s (.addressingError .regIndex) b2) ∧
  (∀ (a b : RegIdx) (s : State), s.pc.toNat + 2 ≤ 255 → 255 < s.pc.toNat + 3 →
    Raises (i (regByte a) (regByte b)) s (.addressingError .pcRange) (narrow (s.pc.toNat + 3)))

section AluInstr

variable {i : Byte → Byte → Instr} {o : Opcode} {op : RegIdx → RegIdx → State → State}
  (hi : ∀ b1 b2 s, exec (i b1 b2) s = aluInstr o op b1 b2 s)
include hi

/-- With a good first register, the checks that remain are those of one register operand. -/
theorem exec_alu_regByte_left (a : RegIdx) (b2 : Byte) (s : State) : exec (i (regByte a) b2) s =
    needBytes o s (withReg b2 s fun b => withSuccessor o s fun next => .next ((op a b s).setPc next)) := by
  rw [hi, aluInstr, withRegs, withReg_regByte]

variable (hlen : lengthOf o = 3)
include hlen

/-- All checks pass: the operation, then the new `pc`. -/
theorem exec_alu_of_le {s : State} (h : s.pc.toNat + 3 ≤ 255) (a b : RegIdx) :
    exec (i (regByte a) (regByte b)) s = .next ((op a b s).setPc (narrow (s.pc.toNat + 3))) := by
  rw [← hlen] at h ⊢
  exact exec_of_successor_le (exec_alu_regByte_left hi a (regByte b) s) h

/-- Each fault is that of the first check to fail. -/
theorem faultsAsAlu : FaultsAsAlu i := by
  have hlast : ∀ s : State, s.pc.toNat + lengthOf o - 1 = s.pc.toNat + 2 := fun s => by rw [hlen]; rfl
  refine ⟨fun b1 b2 s h => ?_, fun b1 b2 s h hb => ?_, fun a b2 s h hb => ?_, fun a b s h hsucc => ?_⟩
  · rw [← hlast] at h ⊢
    exact raises_of_missing_operand (hi b1 b2 s) h
  · exact raises_of_bad_register (hi b1 b2 s) ((hlast s).trans_le h) hb
  · exact raises_of_bad_register (exec_alu_regByte_left hi a b2 s) ((hlast s).trans_le h) hb
  · rw [← hlen] at hsucc ⊢
    exact raises_of_no_successor (exec_alu_regByte_left hi a (regByte b) s) ((hlast s).trans_le h) hsucc

end AluInstr

/-! ## MUL -/

/-- Settles O4: the checks of an ALU instruction in order, then the exact product narrowed into `x[a]`. -/
theorem mulWritesProductMod256 : Obligations.MulWritesProductMod256 := by
  have hi : ∀ b1 b2 s, exec (.mul b1 b2) s = aluInstr .mul aluMul b1 b2 s := fun _ _ _ => rfl
  refine ⟨fun a b s h => ⟨_, exec_alu_of_le hi rfl h a b, ?_⟩, faultsAsAlu hi rfl⟩
  have hproduct : ((aluMul a b s).reg a).toNat = ((s.reg a).toNat * (s.reg b).toNat) % 256 := by simp [aluMul]
  have hregs : SameRegsBut [a] s (aluMul a b s) := fun _ hk => s.setReg_reg_other _ (List.ne_of_not_mem_cons hk)
  exact ⟨hproduct, hregs, narrow_toNat_of_le h, fun _ => rfl, rfl, rfl, rfl, rfl⟩

/-! ## CMP -/

theorem compareFlags_of_eq {x y : Byte} (h : x.toNat = y.toNat) : compareFlags x y = ⟨true, false, false⟩ :=
  if_pos (BitVec.eq_of_toNat_eq h)

theorem compareFlags_of_lt {x y : Byte} (h : x.toNat < y.toNat) : compareFlags x y = ⟨false, true, false⟩ := by
  obtain ⟨rfl, -⟩ | ⟨-, hflags⟩ | ⟨hgt, -⟩ := compareFlags_cases x y
  · exact absurd h (lt_irrefl _)
  · exact hflags
  · exact absurd h hgt.asymm

theorem compareFlags_of_gt {x y : Byte} (h : y.toNat < x.toNat) : compareFlags x y = ⟨false, false, true⟩ := by
  obtain ⟨rfl, -⟩ | ⟨hlt, -⟩ | ⟨-, hflags⟩ := compareFlags_cases x y
  · exact absurd h (lt_irrefl _)
  · exact absurd h hlt.asymm
  · exact hflags

/-- Settles O5: the checks of an ALU instruction in order, then the flags of the unsigned order and nothing else. -/
theorem cmpSetsFlagsFromUnsignedOrder : Obligations.CmpSetsFlagsFromUnsignedOrder := by
  have hi : ∀ b1 b2 s, exec (.cmp b1 b2) s = aluInstr .cmp aluCmp b1 b2 s := fun _ _ _ => rfl
  refine ⟨fun a b s h => ⟨_, exec_alu_of_le hi rfl h a b, ?_⟩, faultsAsAlu hi rfl⟩
  exact ⟨compareFlags_of_eq, compareFlags_of_lt, compareFlags_of_gt, narrow_toNat_of_le h, fun _ => rfl, fun _ => rfl,
    rfl, rfl, rfl⟩

end Sys2Proof.Machine

/-! The jumps (44_control.md R81 to R83): they run checks (2) and (3) of 40_step_loop.md R56, and a conditional jump
that is not taken runs check (5) too. What completes writes `pc` alone; JEQ and JNE share what `jumpIf` can do. -/

namespace Sys2Proof.Machine

/-- A new `pc` leaves every other part of the state as it was. -/
theorem State.setPc_frame (s : State) (a : Byte) :
    SameRegs s (s.setPc a) ∧ SameMemory s (s.setPc a) ∧ (s.setPc a).flags = s.flags ∧ (s.setPc a).out = s.out ∧
      (s.setPc a).status = s.status ∧ (s.setPc a).cfg = s.cfg :=
  ⟨fun _ => rfl, fun _ => rfl, rfl, rfl, rfl, rfl⟩

/-! ## JMP -/

/-- JMP that completes (44_control.md R81): no successor check. -/
theorem exec_jmp_of_le {s : State} (h : s.pc.toNat + 1 ≤ 255) (r : RegIdx) :
    exec (.jmp (regByte r)) s = .next (s.setPc (s.reg r)) := by
  have hbytes : s.pc.toNat + lengthOf .jmp ≤ 256 := Nat.succ_le_succ h
  rw [exec, execJmp, needBytes_of_le hbytes, withReg_regByte]

/-- Settles O9: the two checks of JMP in order, then the new `pc`. -/
theorem jmpGoesToRegister : Obligations.JmpGoesToRegister := by
  refine ⟨fun r s h => ⟨_, exec_jmp_of_le h r, rfl, s.setPc_frame _⟩, fun b s h => ?_, fun b s hlen hb => ?_⟩
  · exact raises_of_missing_operand (o := .jmp) rfl h
  · exact raises_of_bad_register (o := .jmp) rfl hlen hb

/-! ## JEQ and JNE -/

section JumpIf

variable {o : Opcode} (ho : lengthOf o = 2) {s : State} (hlen : s.pc.toNat + 1 ≤ 255) (taken : Bool) (r : RegIdx)
include ho hlen

/-- Checks (2) and (3) pass: the condition decides between the register's jump and the successor check. -/
theorem jumpIf_regByte : jumpIf o taken (regByte r) s =
    if taken then .next (s.setPc (s.reg r)) else withSuccessor o s fun next => .next (s.setPc next) := by
  have hbytes : s.pc.toNat + lengthOf o ≤ 256 := ho ▸ Nat.succ_le_succ hlen
  rw [jumpIf, needBytes_of_le hbytes, withReg_regByte]

/-- A conditional jump that completes writes `pc`: the register's value when taken, else the successor address. -/
theorem jumpIf_of_taken_or_le (h : taken = true ∨ s.pc.toNat + 2 ≤ 255) :
    ∃ a, jumpIf o taken (regByte r) s = .next (s.setPc a) ∧
      (taken = true → a = s.reg r) ∧ (taken = false → a.toNat = s.pc.toNat + 2) := by
  rw [jumpIf_regByte ho hlen]
  cases taken with
  | true => exact ⟨s.reg r, rfl, fun _ => rfl, nofun⟩
  | false =>
    have hsucc : s.pc.toNat + 2 ≤ 255 := h.resolve_left nofun
    refine ⟨narrow (s.pc.toNat + 2), ?_, nofun, fun _ => narrow_toNat_of_le hsucc⟩
    rw [if_neg Bool.false_ne_true, ← ho]
    exact withSuccessor_of_le (ho.symm ▸ hsucc) _

/-- Not taken, a conditional jump needs a successor address (40_step_loop.md R54). -/
theorem jumpIf_false_of_gt (h : 255 < s.pc.toNat + 2) : jumpIf o false (regByte r) s =
    raise (.addressingError .pcRange) (narrow (s.pc.toNat + 2)) s := by
  rw [jumpIf_regByte ho hlen, if_neg Bool.false_ne_true, ← ho]
  exact withSuccessor_of_gt (ho.symm ▸ h) _

end JumpIf

theorem exec_jeq (b : Byte) (s : State) : exec (.jeq b) s = jumpIf .jeq s.flags.e b s := rfl

theorem exec_jne (b : Byte) (s : State) : exec (.jne b) s = jumpIf .jne (!s.flags.e) b s := rfl

/-- Settles O10: `jumpIf` with the condition that E is set. -/
theorem jeqJumpsIffEqualFlag : Obligations.JeqJumpsIffEqualFlag := by
  refine ⟨fun r s hlen h => ?_, fun b s h => ?_, fun b s hlen hb => ?_, fun r s hlen he h => ?_⟩
  · obtain ⟨a, hexec, htaken, hfall⟩ := jumpIf_of_taken_or_le (o := .jeq) rfl hlen s.flags.e r h
    exact ⟨s.setPc a, hexec, htaken, hfall, s.setPc_frame a⟩
  · exact raises_of_missing_operand (o := .jeq) rfl h
  · exact raises_of_bad_register (o := .jeq) rfl hlen hb
  · rw [Raises, exec_jeq, he]
    exact jumpIf_false_of_gt rfl hlen r h

/-- Settles O11: `jumpIf` with the condition that E is clear. -/
theorem jneJumpsIffEqualFlagClear : Obligations.JneJumpsIffEqualFlagClear := by
  refine ⟨fun r s hlen h => ?_, fun b s h => ?_, fun b s hlen hb => ?_, fun r s hlen he h => ?_⟩
  · have hcond : (!s.flags.e) = true ∨ s.pc.toNat + 2 ≤ 255 := h.imp_left fun he => by simp [he]
    obtain ⟨a, hexec, htaken, hfall⟩ := jumpIf_of_taken_or_le (o := .jne) rfl hlen (!s.flags.e) r hcond
    exact ⟨s.setPc a, hexec, fun he => htaken (by simp [he]), fun he => hfall (by simp [he]), s.setPc_frame a⟩
  · exact raises_of_missing_operand (o := .jne) rfl h
  · exact raises_of_bad_register (o := .jne) rfl hlen hb
  · rw [Raises, exec_jne, he]
    exact jumpIf_false_of_gt rfl hlen r h

end Sys2Proof.Machine

/-! Decode errors (60_exceptions.md R92): the opcode byte alone raises them. An instruction that runs can fault by an
addressing error (R93) and by nothing else, and this is said once for each check that stands before its effects. -/

namespace Sys2Proof.Machine

/-! ## The causes an instruction can fault by -/

/-- The answer `r` either is no fault or is an addressing error (60_exceptions.md R93). -/
def FaultsByAddressing (r : Result) : Prop :=
  ∀ t f, r = .next t → t.status = .faulted f → ∃ sub, f.cause = .addressingError sub

section Checks

variable {s : State}

theorem faultsByAddressing_next {t : State} (h : ∀ f, t.status ≠ .faulted f) : FaultsByAddressing (.next t) := by
  rintro _ f ⟨⟩ hf
  exact absurd hf (h f)

theorem faultsByAddressing_raise (sub : AddressingSub) (info : Byte) :
    FaultsByAddressing (raise (.addressingError sub) info s) := by
  rintro _ _ ⟨⟩ ⟨⟩
  exact ⟨sub, rfl⟩

/-- A check that goes on to `k` or raises an addressing error. -/
theorem faultsByAddressing_ite {c : Prop} [Decidable c] {k : Result} {sub : AddressingSub} {info : Byte}
    (h : FaultsByAddressing k) : FaultsByAddressing (if c then k else raise (.addressingError sub) info s) := by
  split
  · exact h
  · exact faultsByAddressing_raise sub info

/-- Check (2), 40_step_loop.md R52. -/
theorem faultsByAddressing_needBytes {o : Opcode} {k : Result} (h : FaultsByAddressing k) :
    FaultsByAddressing (needBytes o s k) := faultsByAddressing_ite h

/-- Check (3), 40_step_loop.md R53. -/
theorem faultsByAddressing_withReg {b : Byte} {k : RegIdx → Result} (h : ∀ r, FaultsByAddressing (k r)) :
    FaultsByAddressing (withReg b s k) := by
  obtain ⟨r, -, hr⟩ | ⟨-, hr⟩ := withReg_cases b s k <;> rw [hr]
  · exact h r
  · exact faultsByAddressing_raise _ _

/-- Check (4) of a push, 43_stack.md R75. -/
theorem faultsByAddressing_withDecrementedSp {k : Byte → Result} (h : ∀ p, FaultsByAddressing (k p)) :
    FaultsByAddressing (withDecrementedSp s k) := faultsByAddressing_ite (h _)

/-- Check (4) of a pop, 43_stack.md R75. -/
theorem faultsByAddressing_withIncrementedSp {p : Byte} {k : Byte → Result} (h : ∀ q, FaultsByAddressing (k q)) :
    FaultsByAddressing (withIncrementedSp p s k) := faultsByAddressing_ite (h _)

/-- Check (5), 40_step_loop.md R54. -/
theorem faultsByAddressing_withSuccessor {o : Opcode} {k : Byte → Result} (h : ∀ a, FaultsByAddressing (k a)) :
    FaultsByAddressing (withSuccessor o s k) := faultsByAddressing_ite (h _)

/-- An ALU instruction (42_alu.md): its checks, then one operation and the new `pc`. -/
theorem faultsByAddressing_aluInstr {o : Opcode} {op : RegIdx → RegIdx → State → State} {b1 b2 : Byte}
    (h : ∀ a b f, (op a b s).status ≠ .faulted f) : FaultsByAddressing (aluInstr o op b1 b2 s) :=
  faultsByAddressing_needBytes <| faultsByAddressing_withReg fun a => faultsByAddressing_withReg fun b =>
    faultsByAddressing_withSuccessor fun _ => faultsByAddressing_next (h a b)

/-- A conditional jump (44_control.md R82, R83), taken or not. -/
theorem faultsByAddressing_jumpIf {o : Opcode} {taken : Bool} {b : Byte} (h : ∀ f, s.status ≠ .faulted f) :
    FaultsByAddressing (jumpIf o taken b s) := by
  refine faultsByAddressing_needBytes <| faultsByAddressing_withReg fun r => ?_
  split
  · exact faultsByAddressing_next h
  · exact faultsByAddressing_withSuccessor fun _ => faultsByAddressing_next h

end Checks

/-- An instruction run in a state that is not faulted faults by an addressing error or not at all, whatever its operand
bytes are (60_exceptions.md R92, R93). -/
theorem exec_faultsByAddressing (i : Instr) {s : State} (hs : ∀ f, s.status ≠ .faulted f) :
    FaultsByAddressing (exec i s) := by
  cases i with
  | halt => exact faultsByAddressing_next nofun
  | ldi | prn =>
    exact faultsByAddressing_needBytes <| faultsByAddressing_withReg fun _ => faultsByAddressing_withSuccessor fun _ =>
      faultsByAddressing_next hs
  | mul | cmp | add => exact faultsByAddressing_aluInstr fun _ _ => hs
  | push | call =>
    exact faultsByAddressing_needBytes <| faultsByAddressing_withReg fun _ =>
      faultsByAddressing_withDecrementedSp fun _ => faultsByAddressing_withSuccessor fun _ => faultsByAddressing_next hs
  | pop =>
    exact faultsByAddressing_needBytes <| faultsByAddressing_withReg fun _ =>
      faultsByAddressing_withIncrementedSp fun _ => faultsByAddressing_withSuccessor fun _ => faultsByAddressing_next hs
  | jmp => exact faultsByAddressing_needBytes <| faultsByAddressing_withReg fun _ => faultsByAddressing_next hs
  | jeq | jne => exact faultsByAddressing_jumpIf hs
  | ret =>
    rw [exec, execRet]
    exact faultsByAddressing_withIncrementedSp fun _ => faultsByAddressing_next hs

/-! ## The decode error of a step -/

/-- At a byte the opcode map does not recognise, a running step raises the decode error (40_step_loop.md R52). -/
theorem step_of_unrecognised {s : State} (hs : s.status = .running) (h : opcodeOf s.cfg (s.load s.pc) = none) :
    step s = .next (s.raised .decodeError (s.load s.pc)) := by
  obtain ⟨i, -, hop, -⟩ | ⟨-, hraise⟩ := step_cases hs
  · rw [h] at hop
    cases hop
  · exact hraise

/-- A step that ends in a decode error was at such a byte: the one other thing a step does is to run an instruction. -/
theorem unrecognised_of_step_decodeError {s t : State} {f : FaultRecord} (h : step s = .next t)
    (ht : t.status = .faulted f) (hf : f.cause = .decodeError) : opcodeOf s.cfg (s.load s.pc) = none := by
  have hs := running_of_step h
  obtain ⟨i, -, -, -, -, hexec⟩ | ⟨hop, -⟩ := step_cases hs
  · have hnotFaulted : ∀ g, s.status ≠ .faulted g := by simp [hs]
    obtain ⟨sub, hsub⟩ := exec_faultsByAddressing i hnotFaulted t f (hexec ▸ h) ht
    rw [hf] at hsub
    cases hsub
  · exact hop

/-- Settles O16: `opcodeOf` answers none exactly at the bytes of no enabled mnemonic. -/
theorem decodeErrorExactlyWhenUnrecognised : Obligations.DecodeErrorExactlyWhenUnrecognised :=
  ⟨fun _ hs h => step_of_unrecognised hs (opcodeOf_none.2 h),
    fun _ _ _ _ h ht hf => opcodeOf_none.1 (unrecognised_of_step_decodeError h ht hf)⟩

end Sys2Proof.Machine

/-! The two directions of the encoding round trip (30_encoding.md R40, R44, R47), and a step on an encoded instruction
in memory (40_step_loop.md R51, R56). -/

namespace Sys2Proof

/-! ## Decode and encode are inverse -/

/-- Where its opcode byte is recognised as its own, an encoding decodes to the instruction it was made from. -/
theorem decode_encode_append {c : Config} {i : Instr} (hop : opcodeOf c (c.byteOf i.opcode) = some i.opcode)
    (rest : List Byte) : decode c (encode c i ++ rest) = .ok (i, rest) := by
  rw [encode, List.cons_append, decode_cons_of_opcodeOf_some hop]
  exact decodeOperands_operandBytes i rest

/-- Settles O30: distinct opcode bytes make the opcode byte find its own mnemonic. -/
theorem decodeOfEncodeIsTheInstruction : Obligations.DecodeOfEncodeIsTheInstruction :=
  fun _ _ rest hdistinct henabled => decode_encode_append (opcodeOf_byteOf hdistinct henabled) rest

/-- The operands of an opcode, when they are all there, are those of an instruction of its row: by the row's format no
byte, one or two are taken (30_encoding.md R40). -/
theorem decodeOperands_ok {o : Opcode} {bs rest : List Byte} {i : Instr} (h : decodeOperands o bs = .ok (i, rest)) :
    i.opcode = o ∧ bs = operandBytes i ++ rest := by
  cases o with
  | halt | ret =>
    cases h
    exact ⟨rfl, rfl⟩
  | prn | push | pop | jmp | jeq | jne | call =>
    match bs, h with
    | _ :: _, rfl => exact ⟨rfl, rfl⟩
  | ldi | mul | cmp | add =>
    match bs, h with
    | _ :: _ :: _, rfl => exact ⟨rfl, rfl⟩

/-- An instruction's encoding has the length of its table row (30_encoding.md R47). -/
theorem encode_length (c : Config) (i : Instr) : (encode c i).length = lengthOf i.opcode := by cases i <;> rfl

/-- What the decoder answers is an instruction whose opcode byte is recognised as its own and whose encoding stands at
the front of the bytes. -/
theorem decode_ok {c : Config} {bs rest : List Byte} {i : Instr} (h : decode c bs = .ok (i, rest)) :
    bs = encode c i ++ rest ∧ opcodeOf c (c.byteOf i.opcode) = some i.opcode := by
  cases bs with
  | nil => cases h
  | cons b0 tail =>
    cases hop : opcodeOf c b0 with
    | none =>
      rw [decode_cons_of_opcodeOf_none hop] at h
      cases h
    | some o =>
      rw [decode_cons_of_opcodeOf_some hop] at h
      obtain ⟨rfl, rfl⟩ := decodeOperands_ok h
      obtain ⟨-, rfl⟩ := opcodeOf_some hop
      exact ⟨rfl, hop⟩

/-- Settles O31: the opcode byte is the recognised mnemonic's, the operand bytes those the row's format takes. -/
theorem encodeOfDecodeIsTheBytes : Obligations.EncodeOfDecodeIsTheBytes := by
  intro c bs rest i h
  obtain ⟨rfl, hop⟩ := decode_ok h
  exact ⟨rfl, (opcodeOf_some hop).1, by rw [List.length_append, encode_length]⟩

end Sys2Proof

namespace Sys2Proof.Machine

/-! ## The step and the window it decodes -/

/-- A prefetched byte that lies in memory is read from there. -/
theorem prefetch_of_le {s : State} {k : Nat} (h : s.pc.toNat + k ≤ 255) :
    prefetch s k = s.load (narrow (s.pc.toNat + k)) := if_pos h

/-- A prefetched byte beyond address 255 is the fallback (40_step_loop.md R51, decision D5). -/
theorem prefetch_of_gt {s : State} {k : Nat} (h : 255 < s.pc.toNat + k) : prefetch s k = s.cfg.prefetchFallback :=
  if_neg (Nat.not_le.mpr h)

theorem step_of_decode {s : State} {i : Instr} {rest : List Byte} (hs : s.status = .running)
    (h : decode s.cfg (fetchWindow s) = .ok (i, rest)) : step s = exec i s := by
  simp only [step, hs, h]

/-- Settles O14: `step` in `Running` at a window that decodes, and the two prefetched bytes on either side of the top of
memory. -/
theorem stepRunsDecodedInstruction : Obligations.StepRunsDecodedInstruction :=
  ⟨fun _ _ _ hs h => step_of_decode hs h,
    fun s => ⟨prefetch s 1, prefetch s 2, rfl, prefetch_of_le, prefetch_of_gt, prefetch_of_le, prefetch_of_gt⟩⟩

/-- Settles O17: in a terminal status `step` answers a fault of the model's own. -/
theorem noStepFromTerminalStatus : Obligations.NoStepFromTerminalStatus := by
  intro s
  constructor
  · intro h
    simp only [step, h]
  · intro f h
    simp only [step, h]

/-- Byte `k` of the window is the byte in memory `k` above `pc`, where there is one (40_step_loop.md R51). -/
theorem fetchWindow_getElem {s : State} {k : Nat} (hk : k < (fetchWindow s).length) (h : s.pc.toNat + k ≤ 255) :
    (fetchWindow s)[k] = s.load (narrow (s.pc.toNat + k)) := by
  match k, hk with
  | 0, _ => simp [fetchWindow]
  | 1, _ => exact prefetch_of_le h
  | 2, _ => exact prefetch_of_le h

/-- An encoding that lies in memory at `pc` is the front of the window. -/
theorem encode_prefix_fetchWindow {s : State} {c : Config} {i : Instr} (hfits : s.pc.toNat + lengthOf i.opcode ≤ 256)
    (hbytes : ∀ k (hk : k < (encode c i).length), s.load (narrow (s.pc.toNat + k)) = (encode c i)[k]) :
    encode c i <+: fetchWindow s := by
  have hlen : (encode c i).length ≤ (fetchWindow s).length := by
    rw [encode_length]
    exact (lengthOf_bounds i.opcode).2
  refine List.prefix_iff_getElem.mpr ⟨hlen, fun k hk => ?_⟩
  have hk' := encode_length c i ▸ hk
  rw [fetchWindow_getElem (hk.trans_le hlen) (by omega), hbytes k hk]

/-- Settles O15: the encoding is the front of the window, so the window decodes to the instruction. -/
theorem encodedInstructionInMemoryRuns : Obligations.EncodedInstructionInMemoryRuns := by
  intro s i hs hdistinct henabled hfits hbytes
  rw [encode_length] at hfits
  obtain ⟨rest, hwindow⟩ := encode_prefix_fetchWindow hfits hbytes
  exact step_of_decode hs (hwindow ▸ decodeOfEncodeIsTheInstruction s.cfg i rest hdistinct henabled)

/-- Settles O33: ADD's bytes are its encoding, what decodes is enabled, and by default 0xA0 is no mnemonic's byte. -/
theorem addDecodableOnlyWhenEnabled : Obligations.AddDecodableOnlyWhenEnabled := by
  refine ⟨fun c a b rest hdistinct hadd => ?_, fun c bs rest i hadd h hop => ?_, fun s hs hcfg hbyte => ?_⟩
  · exact decodeOfEncodeIsTheInstruction c (.add a b) rest hdistinct hadd
  · have henabled : c.enables .add = true := hop ▸ (opcodeOf_some (decode_ok h).2).1
    exact absurd (hadd ▸ henabled) Bool.false_ne_true
  · have hnone : opcodeOf s.cfg (s.load s.pc) = none := by
      rw [hcfg, hbyte]
      decide
    exact hbyte ▸ step_of_unrecognised hs hnone

/-- Settles O34: each of the finitely many words and bytes is decoded. -/
theorem defaultOpcodesDecodeAsTabled : Obligations.DefaultOpcodesDecodeAsTabled := by
  unfold Obligations.DefaultOpcodesDecodeAsTabled
  decide

end Sys2Proof.Machine

/-! What executing an instruction does, once for all thirteen: the checks (2) to (5) of 40_step_loop.md R56 in one flat
order, each with the fault it raises, and after them the instruction's effect on registers, memory, flags, output and
`pc`. Every statement about who writes what, and about what an instruction cannot depend on, follows from these two. -/

namespace Sys2Proof.Machine

/-! ## A check in front of the rest -/

/-- Raise the fault a check has found, or go on to `k`. -/
def orRaise (fault : Option (FaultCause × Byte)) (s : State) (k : Result) : Result :=
  match fault with
  | some (c, info) => raise c info s
  | none => k

@[simp] theorem orRaise_none (s : State) (k : Result) : orRaise none s k = k := rfl

@[simp] theorem orRaise_some (c : FaultCause) (info : Byte) (s : State) (k : Result) :
    orRaise (some (c, info)) s k = .next (s.raised c info) := rfl

theorem orRaise_or (f g : Option (FaultCause × Byte)) (s : State) (k : Result) :
    orRaise (f.or g) s k = orRaise f s (orRaise g s k) := by
  cases f <;> rfl

/-- The register an operand byte names, when it is at most 7. -/
def regOf (b : Byte) : RegIdx := Fin.ofNat 8 b.toNat

@[simp] theorem regOf_regByte (r : RegIdx) : regOf (regByte r) = r := by
  rw [regOf, regByte_toNat, Fin.ofNat_val_eq_self]

/-- Check (3) on one register operand byte (40_step_loop.md R53). -/
def regFault (b : Byte) : Option (FaultCause × Byte) :=
  if 7 < b.toNat then some (.addressingError .regIndex, b) else none

theorem needBytes_eq (i : Instr) (s : State) (k : Result) :
    needBytes i.opcode s k = orRaise (operandBytesFault i s) s k := by
  unfold operandBytesFault
  split
  · rw [needBytes_of_gt ‹_›, orRaise_some, raise]
  · rw [needBytes_of_le (by omega), orRaise_none]

theorem withReg_eq (b : Byte) (s : State) (k : RegIdx → Result) :
    withReg b s k = orRaise (regFault b) s (k (regOf b)) := by
  obtain ⟨r, rfl, hr⟩ | ⟨hb, hr⟩ := withReg_cases b s k
  · have hle : ¬ 7 < (regByte r).toNat := by rw [regByte_toNat]; omega
    rw [hr, regFault, if_neg hle, orRaise_none, regOf_regByte]
  · rw [hr, regFault, if_pos hb, orRaise_some, raise]

theorem withDecrementedSp_eq (s : State) (k : Byte → Result) :
    withDecrementedSp s k = orRaise (pushFault s) s (k (narrow (s.sp.toNat - 1))) := by
  unfold pushFault
  split
  case isTrue h => rw [withDecrementedSp_of_zero (by rw [h]; rfl), orRaise_some, raise]
  case isFalse h =>
    have : s.sp.toNat ≠ 0 := fun e => h (BitVec.eq_of_toNat_eq e)
    rw [withDecrementedSp_of_pos (by omega), orRaise_none]

theorem withIncrementedSp_eq (p : Byte) (s : State) (k : Byte → Result) :
    withIncrementedSp p s k = orRaise (popFault p) s (k (narrow (p.toNat + 1))) := by
  unfold popFault
  split
  case isTrue h => rw [withIncrementedSp_of_255 (by simp [h]), orRaise_some, raise]
  case isFalse h =>
    have : p.toNat ≠ 255 := fun e => h (BitVec.eq_of_toNat_eq e)
    rw [withIncrementedSp_of_lt (by omega), orRaise_none]

theorem withSuccessor_eq {i : Instr} {s : State} (hi : needsSuccessor i s = true) (k : Byte → Result) :
    withSuccessor i.opcode s k = orRaise (successorFault i s) s (k (narrow (s.pc.toNat + lengthOf i.opcode))) := by
  unfold successorFault
  rw [hi, Bool.true_and]
  split
  case isTrue h => rw [withSuccessor_of_gt (by simpa using h), orRaise_some, raise]
  case isFalse h => rw [withSuccessor_of_le (by simpa using h), orRaise_none]

/-! ## The checks of each instruction, and what it does when they pass -/

/-- What an instruction does to the state when no check fails (the effects of 41_load_output.md to 44_control.md). -/
def effect : Instr → State → State
  | .halt, s => s.halt.setPc (narrow (s.pc.toNat + 1))
  | .ldi r imm, s => (s.setReg (regOf r) imm).setPc (narrow (s.pc.toNat + 3))
  | .prn r, s => (s.emit (s.reg (regOf r))).setPc (narrow (s.pc.toNat + 2))
  | .mul a b, s => (aluMul (regOf a) (regOf b) s).setPc (narrow (s.pc.toNat + 3))
  | .cmp a b, s => (aluCmp (regOf a) (regOf b) s).setPc (narrow (s.pc.toNat + 3))
  | .push r, s => (pushed s (narrow (s.sp.toNat - 1)) fun s1 => s1.reg (regOf r)).setPc (narrow (s.pc.toNat + 2))
  | .pop r, s =>
    let s1 := s.setReg (regOf r) (s.load s.sp)
    (s1.setSp (narrow (s1.sp.toNat + 1))).setPc (narrow (s.pc.toNat + 2))
  | .jmp r, s => s.setPc (s.reg (regOf r))
  | .jeq r, s => s.setPc (if s.flags.e then s.reg (regOf r) else narrow (s.pc.toNat + 2))
  | .jne r, s => s.setPc (if !s.flags.e then s.reg (regOf r) else narrow (s.pc.toNat + 2))
  | .call r, s =>
    let s1 := pushed s (narrow (s.sp.toNat - 1)) fun _ => narrow (s.pc.toNat + 2)
    s1.setPc (s1.reg (regOf r))
  | .ret, s => (s.setSp (narrow (s.sp.toNat + 1))).setPc (s.load s.sp)
  | .add a b, s => (aluAdd (regOf a) (regOf b) s).setPc (narrow (s.pc.toNat + 3))

/-- The four checks in their order (40_step_loop.md R55). -/
theorem firstFault_eq (i : Instr) (s : State) : firstFault i s =
    (operandBytesFault i s).or ((regIndexFault i).or ((stackFault i s).or (successorFault i s))) := by
  unfold firstFault
  cases operandBytesFault i s <;> cases regIndexFault i <;> cases stackFault i s <;> cases successorFault i s <;> rfl

theorem regIndexFault_of_one {i : Instr} {b : Byte} (h : i.regOperands = [b]) : regIndexFault i = regFault b := by
  unfold regIndexFault regFault
  rw [h]
  by_cases hb : 7 < b.toNat <;> simp [hb]

theorem regIndexFault_of_two {i : Instr} {a b : Byte} (h : i.regOperands = [a, b]) :
    regIndexFault i = (regFault a).or (regFault b) := by
  unfold regIndexFault regFault
  rw [h]
  by_cases ha : 7 < a.toNat <;> by_cases hb : 7 < b.toNat <;> simp [ha, hb]

theorem successorFault_of_needless {i : Instr} {s : State} (h : needsSuccessor i s = false) :
    successorFault i s = none := by
  rw [successorFault, h, Bool.false_and, if_neg Bool.false_ne_true]

/-- The checks (2) to (5) of an instruction in front of `k`. -/
def checked (i : Instr) (s : State) (k : Result) : Result :=
  orRaise (operandBytesFault i s) s <| orRaise (regIndexFault i) s <| orRaise (stackFault i s) s <|
    orRaise (successorFault i s) s k

section Shapes

variable {i : Instr} {s : State}

theorem checked_of_reg_successor {b : Byte} (hregs : i.regOperands = [b]) (hstack : stackFault i s = none)
    (hsucc : needsSuccessor i s = true) (k : RegIdx → Byte → Result) :
    needBytes i.opcode s (withReg b s fun r => withSuccessor i.opcode s (k r)) =
      checked i s (k (regOf b) (narrow (s.pc.toNat + lengthOf i.opcode))) := by
  rw [checked, needBytes_eq, withReg_eq, regIndexFault_of_one hregs, hstack, orRaise_none, withSuccessor_eq hsucc]

theorem checked_of_alu {a b : Byte} (hregs : i.regOperands = [a, b]) (hstack : stackFault i s = none)
    (hsucc : needsSuccessor i s = true) (op : RegIdx → RegIdx → State → State) :
    aluInstr i.opcode op a b s =
      checked i s (.next ((op (regOf a) (regOf b) s).setPc (narrow (s.pc.toNat + lengthOf i.opcode)))) := by
  rw [aluInstr, withRegs, checked, needBytes_eq, withReg_eq, withReg_eq, regIndexFault_of_two hregs,
    orRaise_or, hstack, orRaise_none, withSuccessor_eq hsucc]

theorem checked_of_jumpIf {b : Byte} {taken : Bool} (hregs : i.regOperands = [b]) (hstack : stackFault i s = none)
    (hsucc : needsSuccessor i s = !taken) :
    jumpIf i.opcode taken b s =
      checked i s (.next (s.setPc (if taken then s.reg (regOf b) else narrow (s.pc.toNat + lengthOf i.opcode)))) := by
  rw [jumpIf, checked, needBytes_eq, withReg_eq, regIndexFault_of_one hregs, hstack, orRaise_none]
  cases taken with
  | true => rw [successorFault_of_needless hsucc, orRaise_none]; rfl
  | false => rw [if_neg Bool.false_ne_true, withSuccessor_eq hsucc]; rfl

theorem checked_of_push {b : Byte} (hregs : i.regOperands = [b]) (hstack : stackFault i s = pushFault s)
    (hsucc : needsSuccessor i s = true) (k : RegIdx → Byte → Byte → Result) :
    needBytes i.opcode s (withReg b s fun r => withDecrementedSp s fun p => withSuccessor i.opcode s (k r p)) =
      checked i s (k (regOf b) (narrow (s.sp.toNat - 1)) (narrow (s.pc.toNat + lengthOf i.opcode))) := by
  rw [checked, needBytes_eq, withReg_eq, regIndexFault_of_one hregs, hstack, withDecrementedSp_eq,
    withSuccessor_eq hsucc]

end Shapes

/-- POP checks the pointer it is about to increment, in `POP R7` the popped byte (43_stack.md R77). -/
theorem stackFault_pop {b : Byte} (hb : b.toNat < 8) (s : State) :
    stackFault (.pop b) s = popFault (s.setReg (regOf b) (s.load s.sp)).sp := by
  have h : spIndex = regOf b ↔ b = 7 := by
    rw [eq_regByte hb, regOf_regByte]
    exact ⟨fun h => h ▸ rfl, fun h => (regByte_inj h).symm⟩
  simp only [State.sp_eq, State.setReg_reg, h]
  rfl

/-- The flat list's stack check is POP's only where the operand byte names a register; elsewhere the register check has
already raised its fault. -/
theorem exec_pop (b : Byte) (s : State) : exec (.pop b) s = checked (.pop b) s (.next (effect (.pop b) s)) := by
  rw [checked, regIndexFault_of_one (b := b) rfl, ← needBytes_eq, exec, execPop, withReg_eq]
  by_cases hb : b.toNat < 8
  · rw [withIncrementedSp_eq, stackFault_pop hb]
    exact congrArg (fun k => needBytes .pop s (orRaise _ s (orRaise _ s k)))
      (withSuccessor_eq (i := .pop b) rfl _)
  · rw [regFault, if_pos (by omega)]
    rfl

theorem operandBytesFault_of_le {i : Instr} {s : State} (h : s.pc.toNat + lengthOf i.opcode ≤ 256) :
    operandBytesFault i s = none := if_neg (by omega)

/-- An opcode byte that has been fetched lies in memory: one byte is always there. -/
theorem operandBytesFault_of_length_one {i : Instr} (h : lengthOf i.opcode = 1) (s : State) :
    operandBytesFault i s = none := operandBytesFault_of_le (h.symm ▸ s.pc.isLt)

/-- Executing an instruction is its checks, then its effect. -/
theorem exec_eq_checked (i : Instr) (s : State) : exec i s = checked i s (.next (effect i s)) := by
  cases i with
  | halt =>
    rw [checked, operandBytesFault_of_length_one rfl]
    rfl
  | ldi r imm => exact checked_of_reg_successor (i := .ldi r imm) rfl rfl rfl _
  | prn r => exact checked_of_reg_successor (i := .prn r) rfl rfl rfl _
  | mul a b => exact checked_of_alu (i := .mul a b) rfl rfl rfl aluMul
  | cmp a b => exact checked_of_alu (i := .cmp a b) rfl rfl rfl aluCmp
  | add a b => exact checked_of_alu (i := .add a b) rfl rfl rfl aluAdd
  | push r => exact checked_of_push (i := .push r) rfl rfl rfl _
  | pop r => exact exec_pop r s
  | jmp r =>
    rw [checked, ← needBytes_eq, regIndexFault_of_one (b := r) rfl, exec, execJmp, withReg_eq]
    rfl
  | jeq r => exact checked_of_jumpIf (i := .jeq r) rfl rfl rfl
  | jne r => exact checked_of_jumpIf (i := .jne r) rfl rfl (Bool.not_not _).symm
  | call r => exact checked_of_push (i := .call r) rfl rfl rfl _
  | ret =>
    rw [checked, operandBytesFault_of_length_one rfl, exec, execRet, withIncrementedSp_eq]
    rfl

end Sys2Proof.Machine

namespace Sys2Proof.Machine

/-! ## The first failed check, or the effect -/

/-- An instruction raises the fault of its first failed check or, where none fails, has its effect. -/
theorem exec_eq (i : Instr) (s : State) : exec i s = orRaise (firstFault i s) s (.next (effect i s)) := by
  rw [exec_eq_checked, checked, firstFault_eq, orRaise_or, orRaise_or, orRaise_or]

theorem raises_of_firstFault {i : Instr} {s : State} {c : FaultCause} {info : Byte}
    (h : firstFault i s = some (c, info)) : Raises i s c info := by
  rw [Raises, exec_eq, h, orRaise_some]
  rfl

theorem exec_of_no_fault {i : Instr} {s : State} (h : firstFault i s = none) : exec i s = .next (effect i s) := by
  rw [exec_eq, h, orRaise_none]

/-- What an instruction answers is the old state with the fault of its first failed check, or its effect. -/
theorem exec_next_cases {i : Instr} {s t : State} (h : exec i s = .next t) :
    (∃ c info, firstFault i s = some (c, info) ∧ t = s.raised c info) ∨ (firstFault i s = none ∧ t = effect i s) := by
  rw [exec_eq] at h
  match hf : firstFault i s with
  | some (c, info) =>
    rw [hf] at h
    cases h
    exact .inl ⟨c, info, rfl, rfl⟩
  | none =>
    rw [hf] at h
    cases h
    exact .inr ⟨rfl, rfl⟩

/-- HALT's effect halts, no other touches the status (40_step_loop.md R57). -/
theorem effect_status (i : Instr) (s : State) : (effect i s).status = if i = .halt then .halted else s.status := by
  cases i <;> rfl

/-- Settles O20: the nested checks are the flat list, whose first failure is raised before the effect. -/
theorem execRaisesTheFirstFailedCheck : Obligations.ExecRaisesTheFirstFailedCheck :=
  fun i s => ⟨fun _ _ => raises_of_firstFault, fun h => ⟨effect i s, exec_of_no_fault h, effect_status i s⟩⟩

/-! ## The first two checks, and the fault an ill-formed instruction raises -/

theorem raises_of_operandBytesFault {i : Instr} {s : State} {c : FaultCause} {info : Byte}
    (h : operandBytesFault i s = some (c, info)) : Raises i s c info := by
  apply raises_of_firstFault
  rw [firstFault_eq, h]
  rfl

theorem raises_of_regIndexFault {i : Instr} {s : State} {c : FaultCause} {info : Byte}
    (hbytes : s.pc.toNat + lengthOf i.opcode ≤ 256) (h : regIndexFault i = some (c, info)) : Raises i s c info := by
  apply raises_of_firstFault
  rw [firstFault_eq, operandBytesFault_of_le hbytes, h]
  rfl

/-- The register check reports a register operand byte above 7 (40_step_loop.md R53). -/
theorem regIndexFault_some {i : Instr} {c : FaultCause} {info : Byte} (h : regIndexFault i = some (c, info)) :
    c = .addressingError .regIndex ∧ info ∈ i.regOperands ∧ 7 < info.toNat := by
  obtain ⟨b, hfind, heq⟩ := Option.map_eq_some_iff.mp h
  cases heq
  exact ⟨rfl, List.mem_of_find?_eq_some hfind, by simpa using List.find?_some hfind⟩

/-- It passes exactly the well-formed instructions (30_encoding.md R41). -/
theorem regIndexFault_eq_none_iff (i : Instr) : regIndexFault i = none ↔ i.wf = true := by
  simp [regIndexFault, Instr.wf]

/-- Settles O21: the register check comes right after that of the operand bytes, on every path of an instruction. -/
theorem illFormedInstructionAlwaysFaults : Obligations.IllFormedInstructionAlwaysFaults := by
  intro i s hwf hbytes
  match h : regIndexFault i with
  | none => simp [(regIndexFault_eq_none_iff i).mp h] at hwf
  | some (c, info) =>
    obtain ⟨rfl, hmem, hgt⟩ := regIndexFault_some h
    exact ⟨info, hmem, hgt, raises_of_regIndexFault hbytes h⟩

/-! ## What a fault record says -/

/-- The fault of a failed check says what its cause means (60_exceptions.md R93): an address just past the top, a
pointer's wrapped value, or a byte that names no register. -/
def TrueFault (c : FaultCause) (info : Byte) : Prop :=
  (c = .addressingError .pcRange ∧ info.toNat ≤ 1) ∨
  (c = .addressingError .spRange ∧ (info = 0 ∨ info = 255)) ∨
  (c = .addressingError .regIndex ∧ 7 < info.toNat)

theorem trueFault_of_pushFault {s : State} {c : FaultCause} {info : Byte} (h : pushFault s = some (c, info)) :
    TrueFault c info := by
  obtain ⟨-, heq⟩ := Option.ite_none_right_eq_some.mp h
  cases heq
  exact .inr (.inl ⟨rfl, .inr rfl⟩)

theorem trueFault_of_popFault {p : Byte} {c : FaultCause} {info : Byte} (h : popFault p = some (c, info)) :
    TrueFault c info := by
  obtain ⟨-, heq⟩ := Option.ite_none_right_eq_some.mp h
  cases heq
  exact .inr (.inl ⟨rfl, .inl rfl⟩)

theorem trueFault_of_stackFault {i : Instr} {s : State} {c : FaultCause} {info : Byte}
    (h : stackFault i s = some (c, info)) : TrueFault c info := by
  cases i with
  | push | call => exact trueFault_of_pushFault h
  | pop | ret => exact trueFault_of_popFault h
  | halt | ldi | prn | mul | cmp | add | jmp | jeq | jne => cases h

/-- The last operand byte of an instruction at 254 or 255 would be at 256 or 257. -/
theorem trueFault_of_operandBytesFault {i : Instr} {s : State} {c : FaultCause} {info : Byte}
    (h : operandBytesFault i s = some (c, info)) : TrueFault c info := by
  obtain ⟨hgt, heq⟩ := Option.ite_none_right_eq_some.mp h
  cases heq
  have hpc := s.pc.isLt
  have hlen := (lengthOf_bounds i.opcode).2
  exact .inl ⟨rfl, by rw [narrow_toNat]; omega⟩

/-- Past the check of the operand bytes, the only successor that is no address is 256. -/
theorem trueFault_of_successorFault {i : Instr} {s : State} {c : FaultCause} {info : Byte}
    (hbytes : operandBytesFault i s = none) (h : successorFault i s = some (c, info)) : TrueFault c info := by
  obtain ⟨hcond, heq⟩ := Option.ite_none_right_eq_some.mp h
  cases heq
  obtain ⟨-, hgt⟩ : needsSuccessor i s = true ∧ 255 < s.pc.toNat + lengthOf i.opcode := by simpa using hcond
  have hle : ¬ 255 < s.pc.toNat + lengthOf i.opcode - 1 := fun h => by simp [operandBytesFault, h] at hbytes
  exact .inl ⟨rfl, by rw [narrow_toNat]; omega⟩

theorem trueFault_of_firstFault {i : Instr} {s : State} {c : FaultCause} {info : Byte}
    (h : firstFault i s = some (c, info)) : TrueFault c info := by
  rw [firstFault_eq, Option.or_eq_some_iff, Option.or_eq_some_iff, Option.or_eq_some_iff] at h
  obtain h | ⟨hbytes, h | ⟨-, h | ⟨-, h⟩⟩⟩ := h
  · exact trueFault_of_operandBytesFault h
  · obtain ⟨rfl, -, hgt⟩ := regIndexFault_some h
    exact .inr (.inr ⟨rfl, hgt⟩)
  · exact trueFault_of_stackFault h
  · exact trueFault_of_successorFault hbytes h

theorem TrueFault.ne_aluContractError {c : FaultCause} {info : Byte} (h : TrueFault c info) :
    c ≠ .aluContractError := by
  obtain ⟨rfl, -⟩ | ⟨rfl, -⟩ | ⟨rfl, -⟩ := h <;> nofun

/-- A true fault's record fits the state it stands in, whose `pc` is the faulting instruction's. -/
theorem TrueFault.fits {c : FaultCause} {info : Byte} (h : TrueFault c info) (s : State) :
    (FaultRecord.mk c s.pc info).fits (s.raised c info) = true := by
  obtain ⟨rfl, hle⟩ | ⟨rfl, hor⟩ | ⟨rfl, hgt⟩ := h
  · simpa [FaultRecord.fits] using hle
  · simpa [FaultRecord.fits] using hor
  · simpa [FaultRecord.fits] using hgt

end Sys2Proof.Machine

/-! Who writes what (10_state.md R11, R14, R18; 20_memory.md R32), and the invariant of every reachable state
(10_state.md R22): one look at each instruction's effect per field, carried to the step by the two things a step can
do. -/

namespace Sys2Proof.Machine

/-! ## What each effect writes -/

@[simp] theorem effect_cfg (i : Instr) (s : State) : (effect i s).cfg = s.cfg := by cases i <;> rfl

/-- CMP alone writes the flags (10_state.md R14). -/
theorem effect_flags_of_ne_cmp {i : Instr} (h : i.opcode ≠ .cmp) (s : State) : (effect i s).flags = s.flags := by
  cases i with
  | cmp => exact absurd rfl h
  | halt | ldi | prn | mul | add | push | pop | jmp | jeq | jne | call | ret => rfl

theorem compareFlags_exactlyOne (x y : Byte) : (compareFlags x y).exactlyOne = true := by
  obtain ⟨-, h⟩ | ⟨-, h⟩ | ⟨-, h⟩ := compareFlags_cases x y <;> rw [h] <;> rfl

theorem effect_cmp_exactlyOne (a b : Byte) (s : State) : (effect (.cmp a b) s).flags.exactlyOne = true :=
  compareFlags_exactlyOne _ _

/-- Every effect keeps the flags or leaves exactly one set. -/
theorem effect_flags_cases (i : Instr) (s : State) :
    (effect i s).flags = s.flags ∨ (effect i s).flags.exactlyOne = true := by
  by_cases h : i.opcode = .cmp
  · cases i with
    | cmp a b => exact .inr (effect_cmp_exactlyOne a b s)
    | halt | ldi | prn | mul | add | push | pop | jmp | jeq | jne | call | ret => cases h
  · exact .inl (effect_flags_of_ne_cmp h s)

theorem pushed_load (s : State) (p : Byte) (value : State → Byte) (a : Byte) :
    (pushed s p value).load a = if a = p then value (s.setSp p) else s.load a := by
  rw [pushed_eq, State.store_load, State.setReg_load, State.setSp_eq]

theorem pushed_reg (s : State) (p : Byte) (value : State → Byte) (k : RegIdx) :
    (pushed s p value).reg k = if k = spIndex then p else s.reg k := by
  rw [pushed_eq, State.store_reg, State.setReg_reg]

/-- A push writes the cell its new pointer points at and no other (43_stack.md R75). -/
theorem pushed_load_ne {s : State} {p a : Byte} {value : State → Byte} (h : (pushed s p value).load a ≠ s.load a) :
    a = p ∧ (pushed s p value).sp = a := by
  rw [pushed_load] at h
  obtain rfl : a = p := by_contra fun hne => h (if_neg hne)
  exact ⟨rfl, pushed_reg ..⟩

/-- PUSH and CALL alone store (20_memory.md R32). -/
theorem effect_load_ne {i : Instr} {s : State} {a : Byte} (h : (effect i s).load a ≠ s.load a) :
    (i.opcode = .push ∨ i.opcode = .call) ∧ a = narrow (s.sp.toNat - 1) ∧ (effect i s).sp = a := by
  cases i with
  | push r => exact ⟨.inl rfl, pushed_load_ne (value := fun s1 => s1.reg (regOf r)) h⟩
  | call r => exact ⟨.inr rfl, pushed_load_ne (value := fun _ => narrow (s.pc.toNat + 2)) h⟩
  | halt | ldi | prn | mul | cmp | add | pop | jmp | jeq | jne | ret => exact absurd rfl h

/-- Every effect keeps the canonical form of memory: the one store is a push's. -/
theorem effect_mem_wf {s : State} (h : s.mem.wf = true) (i : Instr) : (effect i s).mem.wf = true := by
  cases i with
  | push | call => exact Memory.wf_write h _ _
  | halt | ldi | prn | mul | cmp | add | pop | jmp | jeq | jne | ret => exact h

/-- The bytes an instruction emits when it completes: PRN's one (41_load_output.md R61). -/
def emitted : Instr → State → List Byte
  | .prn r, s => [s.reg (regOf r)]
  | .halt, _ | .ldi _ _, _ | .mul _ _, _ | .cmp _ _, _ | .push _, _ | .pop _, _ | .jmp _, _ | .jeq _, _ | .jne _, _
  | .call _, _ | .ret, _ | .add _ _, _ => []

/-- The output before an effect stays in front of what it emits, and nothing else depends on it (10_state.md R18). -/
theorem effect_with_out (i : Instr) (s : State) (before : List Byte) :
    effect i { s with out := before } = { effect i s with out := before ++ emitted i s } := by
  cases i with
  | prn r => rfl
  | halt | ldi | mul | cmp | add | push | pop | jmp | jeq | jne | call | ret =>
    rw [emitted, List.append_nil]
    rfl

theorem effect_out (i : Instr) (s : State) : (effect i s).out = s.out ++ emitted i s :=
  congrArg State.out (effect_with_out i s s.out)

theorem regByte_regOf {b : Byte} (h : b.toNat ≤ 7) : regByte (regOf b) = b := by
  rw [eq_regByte (Nat.lt_succ_of_le h), regOf_regByte]

/-! ## The checks that passed where an instruction completes -/

theorem checks_of_no_fault {i : Instr} {s : State} (h : firstFault i s = none) :
    s.pc.toNat + lengthOf i.opcode ≤ 256 ∧ i.wf = true := by
  rw [firstFault_eq, Option.or_eq_none_iff, Option.or_eq_none_iff] at h
  obtain ⟨hbytes, hregs, -⟩ := h
  refine ⟨?_, (regIndexFault_eq_none_iff i).mp hregs⟩
  have : ¬ 255 < s.pc.toNat + lengthOf i.opcode - 1 := fun h => by simp [operandBytesFault, h] at hbytes
  omega

theorem le_of_mem_regOperands {i : Instr} (h : i.wf = true) {b : Byte} (hb : b ∈ i.regOperands) : b.toNat ≤ 7 :=
  of_decide_eq_true (List.all_eq_true.mp h b hb)

/-- A register written under the name of an operand byte is the one the byte names. -/
theorem eq_of_reg_ne {s : State} {b v : Byte} {k : RegIdx} (hb : b.toNat ≤ 7)
    (h : (s.setReg (regOf b) v).reg k ≠ s.reg k) : regByte k = b := by
  obtain rfl : k = regOf b := by_contra fun hne => h (State.setReg_reg_other _ _ hne)
  exact regByte_regOf hb

theorem eq_spIndex_of_reg_ne {s : State} {v : Byte} {k : RegIdx} (h : (s.setSp v).reg k ≠ s.reg k) : k = spIndex :=
  by_contra fun hne => h (State.setReg_reg_other _ _ hne)

/-! ## What a step can do -/

theorem exec_exists_next (i : Instr) (s : State) : ∃ t, exec i s = .next t := by
  match h : firstFault i s with
  | some (c, info) => exact ⟨_, raises_of_firstFault h⟩
  | none => exact ⟨_, exec_of_no_fault h⟩

/-- A step from `Running` always answers a next state. -/
theorem step_exists_next {s : State} (hs : s.status = .running) : ∃ t, step s = .next t := by
  obtain ⟨i, -, -, -, -, hexec⟩ | ⟨-, hraise⟩ := step_cases hs
  · exact hexec ▸ exec_exists_next i s
  · exact ⟨_, hraise⟩

/-- The record of a decode error fits: `info` is the unrecognised byte at `pc` (60_exceptions.md R92). -/
theorem decodeError_fits {s : State} (h : opcodeOf s.cfg (s.load s.pc) = none) :
    (FaultRecord.mk .decodeError s.pc (s.load s.pc)).fits (s.raised .decodeError (s.load s.pc)) = true := by
  simp [FaultRecord.fits, h]

/-- A step answers the old state with a fitting fault record (60_exceptions.md R90), or the effect of the instruction
whose opcode and operand bytes it has fetched. -/
theorem step_next_cases {s t : State} (h : step s = .next t) :
    (∃ c info, t = s.raised c info ∧ c ≠ .aluContractError ∧ (FaultRecord.mk c s.pc info).fits t = true) ∨
    ∃ i rest, opcodeOf s.cfg (s.load s.pc) = some i.opcode ∧
      [prefetch s 1, prefetch s 2] = operandBytes i ++ rest ∧ firstFault i s = none ∧ t = effect i s := by
  obtain ⟨i, rest, hop, hoperands, -, hexec⟩ | ⟨hop, hraise⟩ := step_cases (running_of_step h)
  · obtain ⟨c, info, hfault, rfl⟩ | ⟨hnone, rfl⟩ := exec_next_cases (hexec ▸ h)
    · have htrue := trueFault_of_firstFault hfault
      exact .inl ⟨c, info, rfl, htrue.ne_aluContractError, htrue.fits s⟩
    · exact .inr ⟨i, rest, hop, (decodeOperands_ok hoperands).2, hnone, rfl⟩
  · obtain rfl : t = s.raised .decodeError (s.load s.pc) := by simpa [h] using hraise
    exact .inl ⟨_, _, rfl, nofun, decodeError_fits hop⟩

/-! ## The invariant -/

theorem State.inv_iff (s : State) :
    s.Inv = true ↔ s.mem.wf = true ∧ s.flags.atMostOne = true ∧ s.statusFits = true := by
  simp [State.Inv, and_assoc]

theorem Flags.atMostOne_of_exactlyOne {f : Flags} (h : f.exactlyOne = true) : f.atMostOne = true :=
  (Bool.and_eq_true_iff.mp h).1

/-- An effect from `Running` leaves no fault record to be checked. -/
theorem effect_statusFits {s : State} (hs : s.status = .running) (i : Instr) : (effect i s).statusFits = true := by
  rw [State.statusFits, effect_status, hs]
  by_cases hi : i = .halt
  · rw [if_pos hi]
  · rw [if_neg hi]

/-- Settles O28: a fault leaves memory and flags and a record that fits, and each effect keeps memory canonical, writes
the flags of one comparison or none, and leaves no record. -/
theorem stepKeepsInvariant : Obligations.StepKeepsInvariant := by
  intro s t hinv h
  obtain ⟨hmem, hflags, -⟩ := s.inv_iff.mp hinv
  rw [State.inv_iff]
  obtain ⟨c, info, rfl, -, hfits⟩ | ⟨i, -, -, -, -, rfl⟩ := step_next_cases h
  · exact ⟨hmem, hflags, hfits⟩
  · refine ⟨effect_mem_wf hmem i, ?_, effect_statusFits (running_of_step h) i⟩
    obtain hsame | hone := effect_flags_cases i s
    · rwa [hsame]
    · exact Flags.atMostOne_of_exactlyOne hone

/-- A loaded state is the reset state with the image placed in it (70_reset_and_hazards.md R111). -/
theorem eq_of_resetWith {c : Config} {image : List Byte} {s : State} (h : State.resetWith c image = .ok s) :
    s = placeBytes { State.reset with cfg := c } loadBase image := by
  unfold State.resetWith at h
  split at h <;> cases h
  rfl

/-- The reset state meets the invariant, and placing an image changes its memory alone. -/
theorem inv_of_resetWith {c : Config} {image : List Byte} {s : State} (h : State.resetWith c image = .ok s) :
    s.Inv = true := by
  rw [eq_of_resetWith h, State.inv_iff]
  refine ⟨placeBytes_mem_wf image _ _ Memory.wf_nil, ?_, ?_⟩ <;> rw [placeBytes_eq] <;> rfl

/-- Settles O27: memory stays canonical while an image is placed, and nothing else is written. -/
theorem resetMeetsInvariant : Obligations.ResetMeetsInvariant := ⟨rfl, fun _ _ _ => inv_of_resetWith⟩

/-- Settles O26: neither a fault nor an effect writes the configuration. -/
theorem configurationNeverWritten : Obligations.ConfigurationNeverWritten := by
  intro s t hr
  refine hr.invariant (P := fun u => u.cfg = s.cfg) (fun u v hu h => ?_) rfl
  obtain ⟨c, info, rfl, -⟩ | ⟨i, -, -, -, -, rfl⟩ := step_next_cases h
  · exact hu
  · rwa [effect_cfg]

/-- A state that meets the invariant and is faulted has its record at its own `pc` (60_exceptions.md R90). -/
theorem State.atPc_of_inv {s : State} (h : s.Inv = true) {f : FaultRecord} (hf : s.status = .faulted f) :
    f.atPc = s.pc := by
  obtain ⟨-, -, hfits⟩ := s.inv_iff.mp h
  simp only [State.statusFits, hf, FaultRecord.fits, Bool.and_eq_true, beq_iff_eq] at hfits
  exact hfits.1

theorem cfg_of_resetWith {c : Config} {image : List Byte} {s : State} (h : State.resetWith c image = .ok s) :
    s.cfg = c := by
  rw [eq_of_resetWith h, placeBytes_eq]

/-- Settles O43: the invariant holds after loading and every step keeps it, and no step writes the configuration. -/
theorem reachableStatesMeetInvariant : Obligations.ReachableStatesMeetInvariant := by
  intro c image s t hload hr
  have hinv : t.Inv = true := hr.invariant (P := fun u => u.Inv = true) stepKeepsInvariant (inv_of_resetWith hload)
  have hcfg : t.cfg = c := (configurationNeverWritten s t hr).trans (cfg_of_resetWith hload)
  exact ⟨hinv, hcfg, fun _ => State.atPc_of_inv hinv⟩

/-! ## Statements about each writer -/

/-- Settles O18: a step from `Running` faults precisely, halts, or keeps the status. -/
theorem runningStepYieldsRunningHaltedOrPreciseFault : Obligations.RunningStepYieldsRunningHaltedOrPreciseFault := by
  intro s hs
  obtain ⟨t, h⟩ := step_exists_next hs
  refine ⟨t, h, ?_⟩
  obtain ⟨c, info, rfl, hc, -⟩ | ⟨i, -, -, -, -, rfl⟩ := step_next_cases h
  · exact .inr (.inr ⟨⟨c, s.pc, info⟩, rfl, rfl, hc⟩)
  · rw [effect_status, hs]
    split
    · exact .inr (.inl rfl)
    · exact .inl rfl

/-- Settles O22: a fault and every effect but CMP's keep the flags, and CMP's effect leaves exactly one set. -/
theorem flagsWrittenByCmpAlone : Obligations.FlagsWrittenByCmpAlone := by
  refine ⟨fun i s t h hi => ?_, fun b1 b2 s t h hst hs => ?_, fun s t hr hone => ?_⟩
  · obtain ⟨c, info, -, rfl⟩ | ⟨-, rfl⟩ := exec_next_cases h
    · rfl
    · exact effect_flags_of_ne_cmp hi s
  · obtain ⟨c, info, -, rfl⟩ | ⟨-, rfl⟩ := exec_next_cases h
    · rw [hs] at hst
      cases hst
    · exact effect_cmp_exactlyOne b1 b2 s
  · refine hr.invariant (P := fun u => u.flags.exactlyOne = true) (fun u v hu h => ?_) hone
    obtain ⟨c, info, rfl, -⟩ | ⟨i, -, -, -, -, rfl⟩ := step_next_cases h
    · exact hu
    · obtain hsame | hone := effect_flags_cases i u
      · rwa [hsame]
      · exact hone

/-- Settles O23: a fault stores nothing, and of the effects only those of a push store, one cell each. -/
theorem memoryWrittenByPushAndCallAlone : Obligations.MemoryWrittenByPushAndCallAlone := by
  intro i s t a h hne
  obtain ⟨c, info, -, rfl⟩ | ⟨-, rfl⟩ := exec_next_cases h
  · exact absurd rfl hne
  · exact effect_load_ne hne

/-- Settles O24: a fault writes no register, and each effect those its checked operand bytes name and the stack
pointer. -/
theorem registersWrittenAsTabled : Obligations.RegistersWrittenAsTabled := by
  intro i s t k h hne
  obtain ⟨c, info, -, rfl⟩ | ⟨hnone, rfl⟩ := exec_next_cases h
  · exact absurd rfl hne
  · obtain ⟨-, hwf⟩ := checks_of_no_fault hnone
    cases i with
    | ldi | mul | add => exact eq_of_reg_ne (le_of_mem_regOperands hwf List.mem_cons_self) hne
    | pop r =>
      refine or_iff_not_imp_right.mpr fun hk => ?_
      have hreg : (effect (.pop r) s).reg k = (s.setReg (regOf r) (s.load s.sp)).reg k :=
        State.setReg_reg_other _ _ hk
      exact eq_of_reg_ne (le_of_mem_regOperands hwf List.mem_cons_self) (hreg ▸ hne)
    | push | call => exact eq_spIndex_of_reg_ne (v := narrow (s.sp.toNat - 1)) hne
    | ret => exact eq_spIndex_of_reg_ne hne
    | halt | prn | cmp | jmp | jeq | jne => exact hne rfl

/-- Settles O25: only PRN's effect emits, and its operand byte is the one fetched from `pc + 1`. -/
theorem outputGrowsByPrnAlone : Obligations.OutputGrowsByPrnAlone := by
  refine ⟨rfl, fun s t h => ?_⟩
  obtain ⟨c, info, rfl, -⟩ | ⟨i, rest, hop, hoperands, hnone, rfl⟩ := step_next_cases h
  · exact .inl rfl
  · rw [effect_out]
    obtain ⟨hlen, hwf⟩ := checks_of_no_fault hnone
    cases i with
    | prn r =>
      have hpc : s.pc.toNat + 1 ≤ 255 := Nat.le_of_succ_le_succ hlen
      have hr : prefetch s 1 = r := (List.cons.inj hoperands).1
      have hb : r.toNat ≤ 7 := le_of_mem_regOperands hwf List.mem_cons_self
      exact .inr ⟨hop, regOf r, by rw [regByte_regOf hb, ← hr, prefetch_of_le hpc], rfl⟩
    | halt | ldi | mul | cmp | add | push | pop | jmp | jeq | jne | call | ret => exact .inl (List.append_nil _)

end Sys2Proof.Machine

/-! What an instruction cannot depend on (30_encoding.md R45; 40_step_loop.md R51; 10_state.md R14, R18): a part of the
state that no check and no fetch reads, and that no effect reads for another part. -/

namespace Sys2Proof.Machine

/-! ## The configuration -/

theorem effect_with_cfg (i : Instr) (s : State) (c : Config) :
    effect i { s with cfg := c } = { effect i s with cfg := c } := by
  cases i <;> rfl

theorem exec_with_cfg {i : Instr} {s t : State} (h : exec i s = .next t) (c : Config) :
    exec i { s with cfg := c } = .next { t with cfg := c } := by
  obtain ⟨cause, info, hfault, rfl⟩ | ⟨hnone, rfl⟩ := exec_next_cases h
  · exact raises_of_firstFault (s := { s with cfg := c }) hfault
  · rw [exec_of_no_fault (s := { s with cfg := c }) hnone, effect_with_cfg]

theorem exec_keeps_cfg {i : Instr} {s t : State} (h : exec i s = .next t) : t.cfg = s.cfg := by
  obtain ⟨c, info, -, rfl⟩ | ⟨-, rfl⟩ := exec_next_cases h
  · rfl
  · exact effect_cfg i s

/-- Settles O35: neither a check nor an effect reads the configuration. -/
theorem execIndependentOfConfiguration : Obligations.ExecIndependentOfConfiguration := by
  intro i s c
  obtain ⟨t, h⟩ := exec_exists_next i s
  exact ⟨t, h, exec_with_cfg h c⟩

/-! ## The prefetch fallback -/

/-- The decoder does not read the fallback byte. -/
theorem opcodeOf_with_fallback (c : Config) (v b0 : Byte) :
    opcodeOf { c with prefetchFallback := v } b0 = opcodeOf c b0 := by
  have henables : ∀ o, ({ c with prefetchFallback := v } : Config).enables o = c.enables o := by
    intro o
    cases o <;> rfl
  have hbyteOf : ∀ o, ({ c with prefetchFallback := v } : Config).byteOf o = c.byteOf o := by
    intro o
    cases o <;> rfl
  simp only [opcodeOf, henables, hbyteOf]

theorem decode_with_fallback (c : Config) (v : Byte) (bs : List Byte) :
    decode { c with prefetchFallback := v } bs = decode c bs := by
  cases bs with
  | nil => rfl
  | cons b0 bs => rw [decode_cons, decode_cons, opcodeOf_with_fallback]

/-- The state with another fallback byte. -/
def State.withFallback (s : State) (v : Byte) : State := { s with cfg := { s.cfg with prefetchFallback := v } }

/-- Where an instruction's bytes all lie in memory, the window under another fallback begins with them too. -/
theorem decode_fetchWindow_withFallback {s : State} {i : Instr} {rest : List Byte}
    (h : decode s.cfg (fetchWindow s) = .ok (i, rest)) (hfits : s.pc.toNat + lengthOf i.opcode ≤ 256) (v : Byte) :
    ∃ rest', decode (s.withFallback v).cfg (fetchWindow (s.withFallback v)) = .ok (i, rest') := by
  have hprefix : encode s.cfg i <+: fetchWindow s := ⟨rest, (decode_ok h).1.symm⟩
  have hmem : encode s.cfg i <+: fetchWindow (s.withFallback v) := by
    refine encode_prefix_fetchWindow (s := s.withFallback v) hfits fun k hk => ?_
    have hk' := encode_length s.cfg i ▸ hk
    rw [hprefix.getElem hk]
    exact (fetchWindow_getElem (hk.trans_le hprefix.length_le) (by omega)).symm
  obtain ⟨rest', hwindow⟩ := hmem
  refine ⟨rest', (decode_with_fallback ..).trans ?_⟩
  exact hwindow ▸ decode_encode_append (decode_ok h).2 rest'

/-- Where they do not, an instruction of the same row faults for its missing bytes, whatever was prefetched. -/
theorem exec_withFallback_of_gt {i j : Instr} {s t : State} (h : exec i s = .next t) (hij : j.opcode = i.opcode)
    (hgt : 256 < s.pc.toNat + lengthOf i.opcode) (v : Byte) :
    exec j (s.withFallback v) = .next (t.withFallback v) := by
  have hi : operandBytesFault i s = some (_, _) := if_pos (by omega)
  have hj : operandBytesFault j (s.withFallback v) = operandBytesFault i s := by
    rw [operandBytesFault, hij]
    rfl
  cases h.symm.trans (raises_of_operandBytesFault hi)
  exact raises_of_operandBytesFault (hj.trans hi)

/-- Settles O36: an operand byte that is prefetched beyond the top of memory faults before it is used. -/
theorem prefetchFallbackUnobservable : Obligations.PrefetchFallbackUnobservable := by
  intro s t v h
  change step (s.withFallback v) = .next (t.withFallback v)
  have hs := running_of_step h
  obtain ⟨i, rest, hop, -, hdecode, hexec⟩ | ⟨hop, hraise⟩ := step_cases hs
  · rw [hexec] at h
    by_cases hfits : s.pc.toNat + lengthOf i.opcode ≤ 256
    · obtain ⟨rest', hdecode'⟩ := decode_fetchWindow_withFallback hdecode hfits v
      rw [step_of_decode (s := s.withFallback v) hs hdecode']
      rw [State.withFallback, State.withFallback, exec_keeps_cfg h]
      exact exec_with_cfg h _
    · have hop' : opcodeOf (s.withFallback v).cfg (s.load s.pc) = some i.opcode := (opcodeOf_with_fallback ..).trans hop
      obtain ⟨j, -, hj, -, -, hexec'⟩ | ⟨hnone, -⟩ := step_cases (s := s.withFallback v) hs
      · rw [hexec']
        exact exec_withFallback_of_gt h (Option.some_inj.mp (hj.symm.trans hop')) (by omega) v
      · exact absurd (hnone.symm.trans hop') nofun
  · obtain rfl : t = s.raised .decodeError (s.load s.pc) := by simpa [h] using hraise
    exact step_of_unrecognised (s := s.withFallback v) hs ((opcodeOf_with_fallback ..).trans hop)

/-! ## The flags L and G, and the output -/

/-- The step's answer is the decode error at `pc` or comes from the instruction the window decodes to. -/
theorem step_next_decode {s t : State} (h : step s = .next t) :
    (opcodeOf s.cfg (s.load s.pc) = none ∧ t = s.raised .decodeError (s.load s.pc)) ∨
    ∃ i rest, decode s.cfg (fetchWindow s) = .ok (i, rest) ∧ exec i s = .next t := by
  obtain ⟨i, rest, -, -, hdecode, hexec⟩ | ⟨hop, hraise⟩ := step_cases (running_of_step h)
  · exact .inr ⟨i, rest, hdecode, hexec ▸ h⟩
  · exact .inl ⟨hop, by simpa [h] using hraise⟩

/-- The state with other flags L and G. -/
def State.withLG (s : State) (l g : Bool) : State := { s with flags := ⟨s.flags.e, l, g⟩ }

/-- An effect under other L and G is the effect but for L and G: CMP overwrites them, the jumps read E alone. -/
theorem effect_withLG (i : Instr) (s : State) (l g : Bool) :
    ∃ l' g', effect i (s.withLG l g) = (effect i s).withLG l' g' := by
  cases i <;> exact ⟨_, _, rfl⟩

theorem exec_withLG {i : Instr} {s t : State} (h : exec i s = .next t) (l g : Bool) :
    ∃ l' g', exec i (s.withLG l g) = .next (t.withLG l' g') := by
  obtain ⟨c, info, hfault, rfl⟩ | ⟨hnone, rfl⟩ := exec_next_cases h
  · exact ⟨l, g, raises_of_firstFault (s := s.withLG l g) hfault⟩
  · obtain ⟨l', g', heffect⟩ := effect_withLG i s l g
    exact ⟨l', g', by rw [exec_of_no_fault (s := s.withLG l g) hnone, heffect]⟩

theorem step_withLG {s t : State} (h : step s = .next t) (l g : Bool) :
    ∃ l' g', step (s.withLG l g) = .next (t.withLG l' g') := by
  have hs := running_of_step h
  obtain ⟨hop, rfl⟩ | ⟨i, rest, hdecode, hexec⟩ := step_next_decode h
  · exact ⟨l, g, step_of_unrecognised (s := s.withLG l g) hs hop⟩
  · rw [step_of_decode (s := s.withLG l g) hs hdecode]
    exact exec_withLG hexec l g

/-- Settles O37: fetch, checks and effects read of the flags E alone. -/
theorem flagsLessAndGreaterNeverRead : Obligations.FlagsLessAndGreaterNeverRead := by
  intro s t l g h
  obtain ⟨l', g', hstep⟩ := step_withLG h l g
  exact ⟨t.withLG l' g', hstep, rfl, fun _ => rfl, fun _ => rfl, rfl, rfl, rfl, rfl⟩

/-- Settles O38: fetch and checks do not read the output, and an effect appends to it what it would append to any. -/
theorem outputNeverRead : Obligations.OutputNeverRead := by
  intro s t before h
  have hs := running_of_step h
  obtain ⟨hop, rfl⟩ | ⟨i, rest, hdecode, hexec⟩ := step_next_decode h
  · refine ⟨[], (List.append_nil _).symm, ?_⟩
    rw [List.append_nil]
    exact step_of_unrecognised (s := { s with out := before }) hs hop
  · rw [step_of_decode (s := { s with out := before }) hs hdecode]
    obtain ⟨c, info, hfault, rfl⟩ | ⟨hnone, rfl⟩ := exec_next_cases hexec
    · refine ⟨[], (List.append_nil _).symm, ?_⟩
      rw [List.append_nil]
      exact raises_of_firstFault (s := { s with out := before }) hfault
    · refine ⟨emitted i s, effect_out i s, ?_⟩
      rw [exec_of_no_fault (s := { s with out := before }) hnone, effect_with_out]

end Sys2Proof.Machine

/-! HALT (40_step_loop.md R57), ADD (42_alu.md R71), the stack instructions PUSH and POP (43_stack.md), CALL and RET
(44_control.md R84, R85), and what two of them do in sequence. -/

namespace Sys2Proof.Machine

/-! ## HALT and ADD -/

/-- Settles O1: HALT has no check, and writes the status and `pc` alone. -/
theorem haltStopsTheEngine : Obligations.HaltStopsTheEngine :=
  fun s => ⟨_, rfl, rfl, rfl, narrow_toNat (s.pc.toNat + 1), fun _ => rfl, fun _ => rfl, rfl, rfl, rfl⟩

/-- Settles O6: the checks of an ALU instruction in order, then the exact sum narrowed into `x[a]`. -/
theorem addWritesSumMod256 : Obligations.AddWritesSumMod256 := by
  have hi : ∀ b1 b2 s, exec (.add b1 b2) s = aluInstr .add aluAdd b1 b2 s := fun _ _ _ => rfl
  refine ⟨fun a b s h => ⟨_, exec_alu_of_le hi rfl h a b, ?_⟩, faultsAsAlu hi rfl⟩
  have hsum : ((aluAdd a b s).reg a).toNat = ((s.reg a).toNat + (s.reg b).toNat) % 256 := by simp [aluAdd]
  have hregs : SameRegsBut [a] s (aluAdd a b s) := fun _ hk => s.setReg_reg_other _ (List.ne_of_not_mem_cons hk)
  exact ⟨hsum, hregs, narrow_toNat_of_le h, fun _ => rfl, rfl, rfl, rfl, rfl⟩

/-! ## The stack check among the others -/

theorem wf_of_regOperands_regByte {i : Instr} {r : RegIdx} (h : i.regOperands = [regByte r]) : i.wf = true := by
  have hle : (regByte r).toNat ≤ 7 := by rw [regByte_toNat]; omega
  simp [Instr.wf, h, hle]

theorem successorFault_of_le {i : Instr} {s : State} (h : s.pc.toNat + lengthOf i.opcode ≤ 255) :
    successorFault i s = none := by
  rw [successorFault, decide_eq_false (Nat.not_lt.mpr h), Bool.and_false, if_neg Bool.false_ne_true]

section StackCheck

variable {i : Instr} {s : State} (hwf : i.wf = true)
include hwf

/-- Checks (2) to (5) pass. -/
theorem exec_of_stackFault_none (hstack : stackFault i s = none) (hlen : s.pc.toNat + lengthOf i.opcode ≤ 255) :
    exec i s = .next (effect i s) := by
  apply exec_of_no_fault
  rw [firstFault_eq, operandBytesFault_of_le (by omega), (regIndexFault_eq_none_iff i).mpr hwf, hstack,
    successorFault_of_le hlen]
  rfl

variable (hlen : s.pc.toNat + lengthOf i.opcode ≤ 256)
include hlen

/-- Check (4) fails after checks (2) and (3) passed (43_stack.md R75). -/
theorem raises_of_stackFault {c : FaultCause} {info : Byte} (h : stackFault i s = some (c, info)) :
    Raises i s c info := by
  apply raises_of_firstFault
  rw [firstFault_eq, operandBytesFault_of_le hlen, (regIndexFault_eq_none_iff i).mpr hwf, h]
  rfl

/-- Check (5) fails after checks (2) to (4) passed (40_step_loop.md R54). -/
theorem raises_of_successorFault (hstack : stackFault i s = none) (hneeds : needsSuccessor i s = true)
    (hgt : 255 < s.pc.toNat + lengthOf i.opcode) :
    Raises i s (.addressingError .pcRange) (narrow (s.pc.toNat + lengthOf i.opcode)) := by
  apply raises_of_firstFault
  rw [firstFault_eq, operandBytesFault_of_le hlen, (regIndexFault_eq_none_iff i).mpr hwf, hstack, successorFault,
    hneeds, Bool.true_and, if_pos (decide_eq_true hgt)]
  rfl

end StackCheck

theorem pushFault_of_zero {s : State} (h : s.sp = 0) : pushFault s = some (.addressingError .spRange, 255) := if_pos h

theorem pushFault_of_ne {s : State} (h : s.sp ≠ 0) : pushFault s = none := if_neg h

theorem pushFault_of_pos {s : State} (h : 1 ≤ s.sp.toNat) : pushFault s = none :=
  pushFault_of_ne fun e => absurd h (by rw [e]; decide)

theorem popFault_255 : popFault 255 = some (.addressingError .spRange, 0) := rfl

theorem popFault_of_ne {p : Byte} (h : p ≠ 255) : popFault p = none := if_neg h

/-! ## PUSH and CALL -/

/-- A push, and then any new `pc`: the pointer and the cell it points at are written, every other register and cell is
as it was (43_stack.md R75). -/
theorem pushed_setPc_frame (s : State) (p a : Byte) (value : State → Byte) :
    ((pushed s p value).setPc a).sp = p ∧ ((pushed s p value).setPc a).load p = value (s.setSp p) ∧
      SameRegsBut [spIndex] s ((pushed s p value).setPc a) ∧ SameMemoryBut p s ((pushed s p value).setPc a) := by
  refine ⟨pushed_reg s p value _, (pushed_load s p value p).trans (if_pos rfl), fun k hk => ?_, fun x hx => ?_⟩
  · exact (pushed_reg s p value k).trans (if_neg (List.ne_of_not_mem_cons hk))
  · exact (pushed_load s p value x).trans (if_neg hx)

/-- A register read after the pointer was moved to `p` (43_stack.md R78). -/
theorem setSp_reg (s : State) (p : Byte) (r : RegIdx) :
    (s.setSp p).reg r = if r = spIndex then p else s.reg r := by
  rw [State.setSp_eq, State.setReg_reg]

/-- PUSH that completes (43_stack.md R76). -/
theorem exec_push_of_le {s : State} (hsp : 1 ≤ s.sp.toNat) (h : s.pc.toNat + 2 ≤ 255) (r : RegIdx) :
    exec (.push (regByte r)) s =
      .next ((pushed s (narrow (s.sp.toNat - 1)) fun s1 => s1.reg r).setPc (narrow (s.pc.toNat + 2))) := by
  rw [exec_of_stackFault_none (i := .push (regByte r)) (wf_of_regOperands_regByte rfl) (pushFault_of_pos hsp) h,
    effect, regOf_regByte]

/-- Settles O7: the four checks of PUSH in order, then the pointer, the one cell and `pc`. -/
theorem pushStoresRegister : Obligations.PushStoresRegister := by
  refine ⟨fun r s hsp h => ⟨_, exec_push_of_le hsp h r, ?_⟩, fun b s h => ?_, fun b s hlen hb => ?_,
    fun r s hlen hsp => ?_, fun r s hlen hsp h => ?_⟩
  · obtain ⟨hsp', hload, hregs, hmem⟩ :=
      pushed_setPc_frame s (narrow (s.sp.toNat - 1)) (narrow (s.pc.toNat + 2)) fun s1 => s1.reg r
    exact ⟨hsp', hload.trans (setSp_reg ..), hregs, hmem, narrow_toNat_of_le h, rfl, rfl, rfl, rfl⟩
  · exact raises_of_missing_operand (o := .push) rfl h
  · exact raises_of_bad_register (o := .push) rfl hlen hb
  · exact raises_of_stackFault (i := .push (regByte r)) (wf_of_regOperands_regByte rfl) (Nat.succ_le_succ hlen)
      (pushFault_of_zero hsp)
  · exact raises_of_successorFault (i := .push (regByte r)) (wf_of_regOperands_regByte rfl) (Nat.succ_le_succ hlen)
      (pushFault_of_ne hsp) rfl h

/-- CALL that completes (44_control.md R84): the target is read after the push. -/
theorem exec_call_of_le {s : State} (hsp : 1 ≤ s.sp.toNat) (h : s.pc.toNat + 2 ≤ 255) (r : RegIdx) :
    exec (.call (regByte r)) s =
      .next ((pushed s (narrow (s.sp.toNat - 1)) fun _ => narrow (s.pc.toNat + 2)).setPc
        (if r = spIndex then narrow (s.sp.toNat - 1) else s.reg r)) := by
  rw [exec_of_stackFault_none (i := .call (regByte r)) (wf_of_regOperands_regByte rfl) (pushFault_of_pos hsp) h,
    effect, regOf_regByte, pushed_reg]

/-- Settles O12: the four checks of CALL in order, then a push of the return address and the jump. -/
theorem callPushesReturnAddress : Obligations.CallPushesReturnAddress := by
  refine ⟨fun r s hsp h => ⟨_, exec_call_of_le hsp h r, ?_⟩, fun b s h => ?_, fun b s hlen hb => ?_,
    fun r s hlen hsp => ?_, fun r s hlen hsp h => ?_⟩
  · obtain ⟨hsp', hload, hregs, hmem⟩ :=
      pushed_setPc_frame s (narrow (s.sp.toNat - 1)) (if r = spIndex then narrow (s.sp.toNat - 1) else s.reg r)
        fun _ => narrow (s.pc.toNat + 2)
    exact ⟨hsp', (congrArg BitVec.toNat hload).trans (narrow_toNat_of_le h), rfl, hregs, hmem, rfl, rfl, rfl, rfl⟩
  · exact raises_of_missing_operand (o := .call) rfl h
  · exact raises_of_bad_register (o := .call) rfl hlen hb
  · exact raises_of_stackFault (i := .call (regByte r)) (wf_of_regOperands_regByte rfl) (Nat.succ_le_succ hlen)
      (pushFault_of_zero hsp)
  · have hfault := raises_of_successorFault (i := .call (regByte r)) (wf_of_regOperands_regByte rfl)
      (Nat.succ_le_succ hlen) (pushFault_of_ne hsp) rfl h
    have htop : s.pc.toNat + lengthOf (Instr.call (regByte r)).opcode = 256 :=
      le_antisymm (Nat.succ_le_succ hlen) h
    rw [htop] at hfault
    exact hfault

/-! ## POP and RET -/

/-- The first assignment of a POP: `x[r] <- M[SP]` (43_stack.md R77). -/
def popTo (r : RegIdx) (s : State) : State := s.setReg r (s.load s.sp)

/-- The pointer that POP then increments is in `POP R7` the popped byte (43_stack.md R78). -/
theorem popTo_sp (r : RegIdx) (s : State) : (popTo r s).sp = if r = spIndex then s.load s.sp else s.sp := by
  simp [popTo, eq_comm]

theorem stackFault_pop_regByte (r : RegIdx) (s : State) :
    stackFault (.pop (regByte r)) s = popFault (popTo r s).sp := by
  have hr : (regByte r).toNat < 8 := by rw [regByte_toNat]; omega
  rw [stackFault_pop hr, regOf_regByte, popTo]

/-- POP that completes (43_stack.md R77). -/
theorem exec_pop_of_le {r : RegIdx} {s : State} (hp : (popTo r s).sp ≠ 255) (h : s.pc.toNat + 2 ≤ 255) :
    exec (.pop (regByte r)) s =
      .next (((popTo r s).setSp (narrow ((popTo r s).sp.toNat + 1))).setPc (narrow (s.pc.toNat + 2))) := by
  have hstack : stackFault (.pop (regByte r)) s = none := (stackFault_pop_regByte r s).trans (popFault_of_ne hp)
  rw [exec_of_stackFault_none (wf_of_regOperands_regByte rfl) hstack h, effect, regOf_regByte]
  rfl

/-- The pointer after a pop, below 255 before it. -/
theorem narrow_succ_toNat {p : Byte} (h : p ≠ 255) : (narrow (p.toNat + 1)).toNat = p.toNat + 1 := by
  have : p.toNat ≠ 255 := fun e => h (BitVec.eq_of_toNat_eq e)
  exact narrow_toNat_of_le (by omega)

/-- Settles O8: the four checks of POP in order, then the register, the pointer read again, and `pc`. -/
theorem popLoadsRegister : Obligations.PopLoadsRegister := by
  refine ⟨fun r s hr hsp h => ?_, fun s hbyte h => ?_, fun b s h => ?_, fun b s hlen hb => ?_,
    fun r s hlen hr hsp => ?_, fun s hlen hbyte => ?_, fun r s hlen hp h => ?_⟩
  · have hpop : (popTo r s).sp = s.sp := (popTo_sp r s).trans (if_neg hr)
    refine ⟨_, exec_pop_of_le (hpop ▸ hsp) h, ?_, ?_, fun k hk => ?_, narrow_toNat_of_le h, fun _ => rfl, rfl, rfl, rfl,
      rfl⟩
    · exact (State.setReg_reg_other _ _ hr).trans (s.setReg_reg_same r _)
    · rw [hpop]
      exact (congrArg BitVec.toNat (State.setReg_reg_same ..)).trans (narrow_succ_toNat hsp)
    · obtain ⟨hkr, hksp⟩ : k ≠ r ∧ k ≠ spIndex := by simpa using hk
      exact (State.setReg_reg_other _ _ hksp).trans (State.setReg_reg_other _ _ hkr)
  · have hpop : (popTo spIndex s).sp = s.load s.sp := (popTo_sp spIndex s).trans (if_pos rfl)
    refine ⟨_, exec_pop_of_le (hpop ▸ hbyte) h, ?_, fun k hk => ?_, narrow_toNat_of_le h, fun _ => rfl, rfl, rfl, rfl,
      rfl⟩
    · rw [hpop]
      exact (congrArg BitVec.toNat (State.setReg_reg_same ..)).trans (narrow_succ_toNat hbyte)
    · have hksp : k ≠ spIndex := List.ne_of_not_mem_cons hk
      exact (State.setReg_reg_other _ _ hksp).trans (State.setReg_reg_other _ _ hksp)
  · exact raises_of_missing_operand (o := .pop) rfl h
  · exact raises_of_bad_register (o := .pop) rfl hlen hb
  · apply raises_of_stackFault (i := .pop (regByte r)) (wf_of_regOperands_regByte rfl) (Nat.succ_le_succ hlen)
    rw [stackFault_pop_regByte, popTo_sp, if_neg hr, hsp, popFault_255]
  · apply raises_of_stackFault (i := .pop (regByte spIndex)) (wf_of_regOperands_regByte rfl) (Nat.succ_le_succ hlen)
    rw [stackFault_pop_regByte, popTo_sp, if_pos rfl, hbyte, popFault_255]
  · have hpop : (popTo r s).sp ≠ 255 := by
      rw [popTo_sp]
      by_cases hr : r = spIndex
      · rwa [if_pos hr] at hp ⊢
      · rwa [if_neg hr] at hp ⊢
    exact raises_of_successorFault (i := .pop (regByte r)) (wf_of_regOperands_regByte rfl) (Nat.succ_le_succ hlen)
      ((stackFault_pop_regByte r s).trans (popFault_of_ne hpop)) rfl h

/-- Settles O13: RET's one check, then `pc` from the cell and the pointer. -/
theorem retPopsProgramCounter : Obligations.RetPopsProgramCounter := by
  refine ⟨fun s hsp => ?_, fun s hsp => ?_⟩
  · have hexec : exec .ret s = .next (effect .ret s) := by
      rw [exec_eq_checked, checked, operandBytesFault_of_length_one rfl, stackFault, popFault_of_ne hsp]
      rfl
    refine ⟨_, hexec, rfl, ?_, fun k hk => ?_, fun _ => rfl, rfl, rfl, rfl, rfl⟩
    · exact (congrArg BitVec.toNat (State.setReg_reg_same ..)).trans (narrow_succ_toNat hsp)
    · exact State.setReg_reg_other _ _ (List.ne_of_not_mem_cons hk)
  · apply raises_of_stackFault (i := .ret) rfl s.pc.isLt
    rw [stackFault, hsp, popFault_255]

/-! ## Sequences -/

/-- The pointer a push leaves. -/
theorem narrow_pred_toNat (p : Byte) : (narrow (p.toNat - 1)).toNat = p.toNat - 1 :=
  narrow_toNat_of_le (by have := p.isLt; omega)

/-- It is no empty stack's, so a pop may follow. -/
theorem narrow_pred_ne_255 {p : Byte} (h : 1 ≤ p.toNat) : narrow (p.toNat - 1) ≠ 255 := fun e => by
  have h255 : p.toNat - 1 = 255 := (narrow_pred_toNat p).symm.trans (congrArg BitVec.toNat e)
  have := p.isLt
  omega

/-- Settles O39: POP reads the cell PUSH wrote, and its pointer is PUSH's plus 1. -/
theorem pushThenPopRoundTrips : Obligations.PushThenPopRoundTrips := by
  intro a b s ha hb hsp hpc
  obtain ⟨hpush, -⟩ := pushStoresRegister
  obtain ⟨t, ht, htsp, htload, htregs, htmem, htpc, -⟩ := hpush a s hsp (by omega)
  rw [if_neg ha] at htload
  have hlow : t.sp.toNat = s.sp.toNat - 1 := htsp ▸ narrow_pred_toNat s.sp
  have hne : t.sp ≠ 255 := htsp ▸ narrow_pred_ne_255 hsp
  obtain ⟨hpop, -⟩ := popLoadsRegister
  obtain ⟨u, hu, hub, husp, huregs, -, humem, -⟩ := hpop b t hb hne (by omega)
  have hsp' : u.sp = s.sp := BitVec.eq_of_toNat_eq (by omega)
  refine ⟨t, u, ht, hu, by rw [hub, htsp, htload], hsp', fun k hk => ?_, by rw [humem, htload], fun x hx => ?_⟩
  · by_cases hksp : k = spIndex
    · exact hksp ▸ hsp'
    · have hkb : k ≠ b := List.ne_of_not_mem_cons hk
      rw [huregs k (by simp [hkb, hksp]), htregs k (by simp [hksp])]
  · rw [humem, htmem x hx]

/-- Settles O40: RET loads the cell CALL wrote, and its pointer is CALL's plus 1. -/
theorem callThenRetReturns : Obligations.CallThenRetReturns := by
  intro r s hsp hpc
  obtain ⟨hcall, -⟩ := callPushesReturnAddress
  obtain ⟨t, ht, htsp, htload, -⟩ := hcall r s hsp hpc
  refine ⟨t, ht, fun u husp huload => ?_⟩
  have hsp' : u.sp = narrow (s.sp.toNat - 1) := husp.trans htsp
  have hlow : u.sp.toNat = s.sp.toNat - 1 := hsp' ▸ narrow_pred_toNat s.sp
  have hne : u.sp ≠ 255 := hsp' ▸ narrow_pred_ne_255 hsp
  obtain ⟨hret, -⟩ := retPopsProgramCounter
  obtain ⟨v, hv, hvpc, hvsp, -⟩ := hret u hne
  exact ⟨v, hv, by rw [hvpc, huload, htsp, htload], BitVec.eq_of_toNat_eq (by omega)⟩

/-- Settles O41: the new pointer is the new `pc`, so the next fetch reads the pushed byte. -/
theorem pushedByteIsFetchedNext : Obligations.PushedByteIsFetchedNext := by
  intro r s hs hpc hsp hr
  obtain ⟨hpush, -⟩ := pushStoresRegister
  obtain ⟨t, ht, -, htload, -, -, htpc, -, -, htstatus, htcfg⟩ := hpush r s (by omega) hpc
  rw [if_neg hr] at htload
  have hat : narrow (s.sp.toNat - 1) = t.pc := by
    apply BitVec.eq_of_toNat_eq
    rw [narrow_toNat]
    omega
  rw [hat] at htload
  have htrun : t.status = .running := htstatus.trans hs
  refine ⟨t, ht, htrun, fun hnone => ?_, fun o ho => ?_⟩
  · rw [← htload, ← htcfg] at hnone
    exact htload ▸ step_of_unrecognised htrun hnone
  · rw [← htload, ← htcfg] at ho
    obtain ⟨j, -, hj, -, -, hexec⟩ | ⟨hnone, -⟩ := step_cases htrun
    · exact ⟨j, Option.some_inj.mp (hj.symm.trans ho), hexec⟩
    · exact absurd (hnone.symm.trans ho) nofun

end Sys2Proof.Machine

/-! Loading an image (70_reset_and_hazards.md R110, R111), the end of a run (40_step_loop.md R58, R59) and program text
(30_encoding.md R48). -/

namespace Sys2Proof.Machine

/-! ## Loading -/

/-- What a cell reads after bytes were placed from `a` upward: the byte placed there, or what it read before. -/
theorem placeBytes_load (bs : List Byte) (s : State) (a : Nat) (x : Byte) :
    (placeBytes s a bs).load x = if a ≤ x.toNat then bs.getD (x.toNat - a) (s.load x) else s.load x := by
  induction bs generalizing s a with
  | nil => simp [placeBytes]
  | cons b bs ih =>
    have hstore : (if a ≤ 255 then s.store (narrow a) b else s).load x = if x.toNat = a then b else s.load x := by
      have hx := x.isLt
      by_cases ha : a ≤ 255
      · have hiff : x = narrow a ↔ x.toNat = a := by rw [← BitVec.toNat_inj, narrow_toNat_of_le ha]
        rw [if_pos ha, State.store_load, if_congr hiff rfl rfl]
      · rw [if_neg ha, if_neg (by omega)]
    rw [placeBytes, ih, hstore]
    obtain hlt | rfl | hgt := lt_trichotomy x.toNat a
    · rw [if_neg (by omega), if_neg (by omega), if_neg (by omega)]
    · simp
    · rw [if_pos (by omega), if_neg (by omega), if_pos (by omega), ← Nat.succ_pred_eq_of_pos (Nat.sub_pos_of_lt hgt)]
      rfl

/-- Settles O29: an image that fits is placed from address 0 into the reset state, whose cells read 0. -/
theorem loadedImageGivesResetState : Obligations.LoadedImageGivesResetState := by
  refine ⟨fun c image hlen => ?_, fun c image hlen => if_neg (Nat.not_le.mpr hlen), rfl⟩
  refine ⟨placeBytes { State.reset with cfg := c } loadBase image, if_pos hlen, fun i hi => ?_, fun a ha => ?_, ?_⟩
  · have hat : (BitVec.ofNat 8 i).toNat = i := narrow_toNat_of_le (by omega)
    rw [placeBytes_load, hat, loadBase, if_pos (Nat.zero_le i), Nat.sub_zero, List.getD_eq_getElem _ _ hi]
  · rw [placeBytes_load, loadBase, if_pos (Nat.zero_le _), Nat.sub_zero, List.getD_eq_default _ _ ha]
    rfl
  · have hregs : ∀ k : RegIdx, k ≠ spIndex → State.reset.reg k = 0 := by decide
    rw [placeBytes_eq]
    exact ⟨rfl, hregs, rfl, rfl, rfl, rfl, rfl, rfl⟩

/-! ## The end of a run -/

/-- One step, as a relation. -/
def Steps (s t : State) : Prop := step s = .next t

theorem steps_rightUnique : Relator.RightUnique Steps := fun _ _ _ ht hu => by
  cases ht.symm.trans hu
  rfl

theorem Reaches.reflTransGen {s t : State} (h : Reaches s t) : Relation.ReflTransGen Steps s t := by
  induction h with
  | refl => exact .refl
  | tail _ hstep ih => exact ih.tail hstep

/-- Nothing but itself is reached from a state that is not `Running`. -/
theorem eq_of_reflTransGen {s t : State} (hs : s.status ≠ .running) (h : Relation.ReflTransGen Steps s t) : s = t := by
  obtain rfl | ⟨u, hstep, -⟩ := h.cases_head
  · rfl
  · exact absurd (running_of_step hstep) hs

/-- Settles O42: steps are deterministic, so of two states reached one reaches the other, and an end reaches itself
alone. -/
theorem endOfRunIsUnique : Obligations.EndOfRunIsUnique := by
  intro s t u ht hu htend huend
  obtain h | h := Relation.ReflTransGen.total_of_right_unique steps_rightUnique ht.reflTransGen hu.reflTransGen
  · exact eq_of_reflTransGen htend h
  · exact (eq_of_reflTransGen huend h).symm

/-! ## Program text -/

/-- The value of a byte's eight digits, the most significant first. -/
theorem foldl_getLsbD (b : Byte) :
    narrow (([7, 6, 5, 4, 3, 2, 1, 0].map b.getLsbD).foldl (fun n d => 2 * n + d.toNat) 0) = b := by
  revert b
  decide

/-- Settles O44: the line's body is its digits, no character at all, or spoilt by the stray one. -/
theorem programLineGivesItsByte : Obligations.ProgramLineGivesItsByte := by
  intro pre post tail hpre hpost htail
  have hdigits : ∀ digits : List Bool, digits ≠ [] → digits.length ≤ 8 →
      parseLine (pre ++ digits.map (fun d => if d then '1' else '0') ++ post ++ tail) =
        .ok (some (narrow (digits.foldl (fun n d => 2 * n + d.toNat) 0))) := by
    intro digits hne hlen
    refine parseLine_of_lineBody_digits hne hlen (lineBody_trims hpre hpost (fun c hc => ?_) htail)
    obtain ⟨d, -, rfl⟩ := List.mem_map.mp hc
    cases d <;> decide
  refine ⟨hdigits, fun b => ?_, ?_, fun before c hbefore hc hspace h0 h1 => ?_⟩
  · have hbyte := hdigits ([7, 6, 5, 4, 3, 2, 1, 0].map b.getLsbD) (by simp) (by simp)
    rwa [foldl_getLsbD, List.map_map] at hbyte
  · have hblank := lineBody_trims (body := []) (post := []) hpre (by simp) (by simp) htail
    rw [List.append_nil, List.append_nil] at hblank
    exact parseLine_of_lineBody_nil hblank
  · exact parseLine_of_mem_lineBody (mem_lineBody hbefore htail hc hspace) h0 h1

end Sys2Proof.Machine
